-- ==== Sys2Proof/Word.lean ====
section
/-! DEFINITION. The two bit-vector types of the block: a 32-bit register or command word (00_scope R6, R61) and a
buffer byte (20_memory R40). -/

namespace Sys2Proof

/-- A 32-bit register value or command word. -/
abbrev Word := BitVec 32

/-- One byte of the buffer memory. -/
abbrev Byte := BitVec 8

end Sys2Proof
end

