-- ==== Sys2Proof/Config.lean ====
section
/-! DEFINITION. The parameters of the block (00_scope R6) and the one free value of the model, the buffer bytes after
power-up (10_state R29, 93_implementation_defined I3). -/

namespace Sys2Proof

/-- The order of the bytes of a stored word (`WORD_ENDIAN`, 20_memory R43). -/
inductive Endian where
  | little
  | big
  deriving DecidableEq, Repr

/-- The open parameter of the block, `BUF_MAX`, held as what is missing from its largest value `2^28`, so that every
`Config` is a legal one (00_scope R6: `1 <= BUF_MAX <= 2^28`). -/
structure Config where
  bufMaxShort : Fin 268435456
  deriving DecidableEq, Repr, Inhabited

/-- `BUF_MAX`, the size in bytes of the buffer memory (00_scope R6, 20_memory R40). -/
def Config.bufMax (c : Config) : Nat := 268435456 - c.bufMaxShort.val

/-- The `BUF_MAX` of the machine at hand: an open parameter, so nothing fixes it (log 2). -/
opaque Config.implementation : Config

/-- FREE VALUE: what the buffer byte at an address holds after power-up, before anything wrote it. The spec calls it
unknown (10_state R29, 70_reset R160) and 93_implementation_defined I3 treats it as any value, a draw per byte
(log 1). -/
opaque Config.powerUpByte : Nat → Byte

/-- `MAX_WIDTH`, the largest legal width (00_scope R6). -/
def Config.maxWidth : Nat := 32

/-- `BYTE_BITS` (00_scope R6). -/
def Config.byteBits : Nat := 8

/-- `WORD_BITS`, the bits of the pending word (00_scope R6). -/
def Config.wordBits : Nat := 32

/-- `WORD_BYTES`, the bytes of a stored word (00_scope R6). -/
def Config.wordBytes : Nat := 4

/-- `WORD_ENDIAN`: this hardware is little-endian (00_scope R6, 92_eei_decisions D6, log 8). -/
def Config.wordEndian : Endian := .little

/-- `WIDTH_FIELD_BITS`, the bits of a command's WIDTH field (00_scope R6, 92_eei_decisions D4). -/
def Config.widthFieldBits : Nat := 6

end Sys2Proof
end

