-- ==== Sys2Proof/Syntax.lean ====
section
/-! DEFINITION. The commands of the block as syntax: one constructor per row of spec/opcode_table.json (30_encoding
R60, R61, R64). -/

namespace Sys2Proof

/-- The direction of a session (10_state R13): `DIR = 0` is a write session, `DIR = 1` a read session. -/
inductive Dir where
  | write
  | read
  deriving DecidableEq, Repr

/-- The engine of a session (10_state R13): `ENG = 0` is the byte-cursor engine, `ENG = 1` the word-accumulator
engine. -/
inductive Engine where
  | byte
  | word
  deriving DecidableEq, Repr

/-- A command. A width is a natural number, as the assembler takes it (30_encoding R69); which widths have an encoding
is said by `Instr.WellFormed` (log 11). The values `n` and `v` of the syntax are not in the word: they are in DATA (R63). -/
inductive Instr where
  /-- OPEN: start a session of this direction and engine (42_session_control R120). -/
  | openSession (dir : Dir) (eng : Engine)
  /-- CLOSE: end the session (42_session_control R124). -/
  | closeSession
  /-- WRITE: pack `width` bits of DATA (40_byte_cursor R80, 41_word_accumulator R100). -/
  | write (width : Nat)
  /-- READ: unpack `width` bits into RESULT (40_byte_cursor R84, 41_word_accumulator R104). -/
  | read (width : Nat)
  /-- FLUSH: store the pending word (41_word_accumulator R106). -/
  | flush
  /-- EXTEND: enlarge the buffer of a write session (42_session_control R126). -/
  | extend
  deriving DecidableEq, Repr

end Sys2Proof
end

