-- ==== Sys2Proof/WellFormed.lean ====
section
/-! DEFINITION. Which commands have an encoding: a width of `WIDTH_FIELD_BITS` bits (30_encoding R62, R69: a width of
64 or more has no encoding and is refused by an assembler). -/

namespace Sys2Proof

/-- A width the WIDTH field can hold, `0 .. 63` (30_encoding R62). -/
abbrev Instr.WidthEncodable (w : Nat) : Prop := w < 2 ^ Config.widthFieldBits

/-- The command has an encoding (30_encoding R69). -/
def Instr.wellFormed : Instr → Bool
  | .openSession _ _ => true
  | .closeSession => true
  | .write w => decide (Instr.WidthEncodable w)
  | .read w => decide (Instr.WidthEncodable w)
  | .flush => true
  | .extend => true

/-- `Instr.wellFormed` as a proposition. -/
abbrev Instr.WellFormed (i : Instr) : Prop := i.wellFormed = true

end Sys2Proof
end

