-- ==== Sys2Proof/Decode.lean ====
section
/-! DEFINITION. The decoder, total on all command words (30_encoding R65), and the encoder, from the same opcode map
(30_encoding R61, R64). -/

namespace Sys2Proof

/-- Why a word is ILLEGAL (30_encoding R65, R67). The block reports both as E_CMD (log 14). -/
inductive Illegal where
  /-- The opcode `OP` is one of the reserved ones, 0x0 and 0x7 to 0xF (30_encoding R67). -/
  | reservedOpcode
  /-- The opcode is a command's, but a reserved bit or a field the command does not use is not 0 (30_encoding R65). -/
  | nonzeroUnusedField
  deriving DecidableEq, Repr

/-- The field `OP = CMD[3:0]` (30_encoding R61). -/
def opField (x : Word) : BitVec 4 := x.extractLsb' 0 4

/-- The field `DIR = CMD[4]` as a direction (30_encoding R61). -/
def dirField (x : Word) : Dir := if x.getLsbD 4 then .read else .write

/-- The field `ENG = CMD[5]` as an engine (30_encoding R61). -/
def engField (x : Word) : Engine := if x.getLsbD 5 then .word else .byte

/-- The field `WIDTH = CMD[13:8]`, zero-extended and not scaled (30_encoding R62). -/
def widthField (x : Word) : Nat := (x.extractLsb' 8 6).toNat

/-- Which reason an ILLEGAL word is given: its opcode, or else an unused field. -/
def illegalReason (x : Word) : Illegal :=
  if opField x = 0#4 ∨ 7#4 ≤ opField x then .reservedOpcode else .nonzeroUnusedField

/-- The decoder of 30_encoding R65: the tests in the rule's order, each row by its mask and match (R64). -/
def decode (x : Word) : Except Illegal Instr :=
  if x &&& 0xFFFFFFC0#32 = 0#32 ∧ opField x = 0x1#4 then .ok (.openSession (dirField x) (engField x))
  else if x = 0x00000002#32 then .ok .closeSession
  else if x &&& 0xFFFFC0FF#32 = 0x00000003#32 then .ok (.write (widthField x))
  else if x &&& 0xFFFFC0FF#32 = 0x00000004#32 then .ok (.read (widthField x))
  else if x = 0x00000005#32 then .ok .flush
  else if x = 0x00000006#32 then .ok .extend
  else .error (illegalReason x)

/-- The decoder's answer on an instruction of `nbits` bits numbered as the opcode table numbers them: a command is one
32-bit word (30_encoding R61), so anything that does not fit one word is refused. -/
def decodeTableWord (nbits w : Nat) : Option Instr :=
  if w % 2 ^ nbits < 2 ^ 32 then
    match decode (BitVec.ofNat 32 (w % 2 ^ nbits)) with
    | .ok i => some i
    | .error _ => none
  else none

/-- `DIR` as a bit (30_encoding R61). -/
def dirBit : Dir → Word
  | .write => 0#32
  | .read => 1#32

/-- `ENG` as a bit (30_encoding R61). -/
def engBit : Engine → Word
  | .byte => 0#32
  | .word => 1#32

/-- The WIDTH operand in its place, `w << 8` (30_encoding R69). -/
def widthBits (w : Nat) : Word := BitVec.ofNat 32 w <<< 8

/-- The command word of a well-formed command (30_encoding R64, R69; the encodings of R80, R84, R106, R120, R124 and
R126). -/
def encode : Instr → Word
  | .openSession d e => 0x00000001#32 ||| (dirBit d <<< 4) ||| (engBit e <<< 5)
  | .closeSession => 0x00000002#32
  | .write w => 0x00000003#32 ||| widthBits w
  | .read w => 0x00000004#32 ||| widthBits w
  | .flush => 0x00000005#32
  | .extend => 0x00000006#32

end Sys2Proof
end

