-- ==== Sys2Proof/Machine/State.lean ====
section
/-! DEFINITION. The state of the block (10_state R12), the moves of its host (60_exceptions R150) and the reasons a step
can stop. -/

namespace Sys2Proof.Machine

/-- `STATUS.CODE`: the outcome of the last command, exactly four values (60_exceptions R142). -/
inductive StatusCode where
  /-- 0, success (60_exceptions R140). -/
  | ok
  /-- 1, width above 32 or not enough room (60_exceptions R143). -/
  | eWidth
  /-- 2, illegal word or wrong session state (60_exceptions R144). -/
  | eCmd
  /-- 3, a buffer length that will not do (60_exceptions R145). -/
  | eCfg
  deriving DecidableEq, Repr

/-- One access of the host (60_exceptions R150). A register is named by its number, the register at byte offset
`4 * reg`, so that a narrow or misaligned register access is no move (20_memory R45, log 6). -/
inductive HostMove where
  /-- Write a 32-bit register; a write of CMD, register 0, runs a command (10_state R22, R24). -/
  | writeReg (reg : Nat) (value : Word)
  /-- Read a 32-bit register (10_state R23, R24). -/
  | readReg (reg : Nat)
  /-- Write one byte of the buffer memory (20_memory R52). -/
  | writeByte (addr : Nat) (value : Byte)
  /-- Read one byte of the buffer memory (20_memory R52, 42_session_control R125). -/
  | readByte (addr : Nat)
  /-- Pulse the reset input (70_reset R160, log 12). -/
  | reset
  deriving DecidableEq, Repr

/-- What the block gives back to the host's reads (60_exceptions R150). -/
inductive Reply where
  | register (value : Word)
  | byte (value : Byte)
  deriving DecidableEq, Repr

/-- The buffer memory: the bytes written since power-up, by strictly rising address (`Memory.wf`). An unlisted byte
holds no written value; what it reads as is `Memory.unlisted`. -/
abbrev Memory := List Host.Cell

/-- The state. The fields from `active` to `mem` are the table of 10_state R12; `cfg` is the open parameter, which no
step writes; `pending` and `replies` are the host's side of the interface. -/
structure State where
  /-- The parameter `BUF_MAX` (00_scope R6, log 2). -/
  cfg : Config
  /-- `ACTIVE`: a session is open (10_state R13). -/
  active : Bool
  /-- `DIR`: the session's direction (10_state R13). -/
  dir : Dir
  /-- `ENG`: the session's engine (10_state R13). -/
  eng : Engine
  /-- `DATA`: the command operand, written by the host only (10_state R14). -/
  data : Word
  /-- `LEN`: the buffer length in bytes (10_state R15). -/
  len : Word
  /-- `BIDX`: the byte-cursor engine's byte index (10_state R16). -/
  bidx : BitVec 29
  /-- `BOFF`: the byte-cursor engine's bit offset in byte `BIDX` (10_state R16). -/
  boff : BitVec 3
  /-- `ACC`: the pending word (write) or the loaded word (read) (10_state R17, R18). -/
  acc : Word
  /-- `ACNT`: the free bits of ACC (write) or its unread bits (read) (10_state R17, R18). -/
  acnt : BitVec 6
  /-- `WPTR`: the byte address of the next word to store or load (10_state R17, R18). -/
  wptr : Word
  /-- `RESULT`: the value of the last successful READ (10_state R20). -/
  result : Word
  /-- `STATUS.CODE` (10_state R21). -/
  code : StatusCode
  /-- `STATUS.EWIDTH`: the offending width of an E_WIDTH, else 0 (10_state R21). -/
  ewidth : BitVec 6
  /-- The buffer memory (20_memory R40). -/
  mem : Memory
  /-- The host's moves still to come, the next one first (log 3). -/
  pending : List HostMove
  /-- What the host's reads gave back, oldest first (log 4). -/
  replies : List Reply
  deriving DecidableEq, Repr

/-- The state right after reset (10_state R29, 70_reset R160): every register 0, no session, nothing known about the
buffer memory; no host move waiting and none answered (log 3, log 4). -/
def State.reset : State where
  cfg := Config.implementation
  active := false
  dir := .write
  eng := .byte
  data := 0#32
  len := 0#32
  bidx := 0#29
  boff := 0#3
  acc := 0#32
  acnt := 0#6
  wptr := 0#32
  result := 0#32
  code := .ok
  ewidth := 0#6
  mem := []
  pending := []
  replies := []

/-- Why the machine stops with a fault. No command of a state that meets 10_state R28 faults. -/
inductive Fault where
  /-- The host's byte access names an address at or above `BUF_MAX`, which does not exist (20_memory R40). Raised by the
  host's byte moves. Safe: the model stops (log 7). -/
  | hostNoSuchByte (addr : Nat)
  /-- An engine access would reach an address at or above `BUF_MAX`, which does not exist (20_memory R40, R41). Raised
  by WRITE, READ and FLUSH in states that break 10_state R28 only. Safe: the model stops (log 7). -/
  | engineNoSuchByte (addr : Nat)
  deriving DecidableEq, Repr

/-- Why the machine refuses. -/
inductive Refusal where
  /-- The instruction has no meaning yet: raised by its arm of `exec` alone. Safe: the model stops. -/
  | notModelled (mnemonic : String)
  /-- The host writes a byte of the live session's buffer, a breach of its duty for which the spec gives no effect
  (20_memory R52: "a model gives the host no such move"; 93_implementation_defined I6). Raised by the host's byte write.
  Safe: the model stops (log 5). -/
  | hostWriteInSession (addr : Nat)
  deriving DecidableEq, Repr

end Sys2Proof.Machine
end

