-- ==== Sys2Proof/Machine/Flags.lean ====
section
/-! DEFINITION. The block has no condition codes (10_state R25): its only flag-like state is STATUS. Its layout
(10_state R21) and its two updates, one per way a command ends (60_exceptions R140, R141). -/

namespace Sys2Proof.Machine

/-- The value of `STATUS.CODE` (60_exceptions R142). -/
def codeBits : StatusCode → BitVec 2
  | .ok => 0#2
  | .eWidth => 1#2
  | .eCmd => 2#2
  | .eCfg => 3#2

/-- The bit of DIR (10_state R13). -/
def dirFlag : Dir → Bool
  | .write => false
  | .read => true

/-- The bit of ENG (10_state R13). -/
def engFlag : Engine → Bool
  | .byte => false
  | .word => true

/-- The STATUS register as the host reads it (10_state R21): ENG in bit 18, DIR 17, ACTIVE 16, EWIDTH 13:8, CODE 1:0,
every other bit 0. -/
def statusWord (s : State) : Word :=
  0#13 ++ BitVec.ofBool (engFlag s.eng) ++ BitVec.ofBool (dirFlag s.dir) ++ BitVec.ofBool s.active ++ 0#2 ++ s.ewidth
    ++ 0#6 ++ codeBits s.code

/-- STATUS after a success: `CODE <- OK`, `EWIDTH <- 0` (60_exceptions R140). -/
def setStatusOk (s : State) : State := { s with code := .ok, ewidth := 0#6 }

/-- STATUS after a failure: `CODE <- E`, `EWIDTH <- info` (60_exceptions R141). -/
def setStatusError (e : StatusCode) (info : Nat) (s : State) : State :=
  { s with code := e, ewidth := BitVec.ofNat 6 info }

end Sys2Proof.Machine
end

