-- ==== Sys2Proof/Machine/Ops.lean ====
section
/-! DEFINITION. The named operations over memory and registers: the buffer memory (20_memory R42, R43), the bit masks
(00_scope R7), the cursor and the fit check (00_scope R8, 10_state R19), and the two ways a command ends (60_exceptions
R140, R141). The block has no trap (60_exceptions R148): `raise` is its whole error entry, and nothing returns from
it. -/

namespace Sys2Proof.Machine

/-! ### The buffer memory -/

/-- What an unlisted address reads as: the free byte of power-up (10_state R29, log 1). -/
def Memory.unlisted (a : Nat) : Byte := Config.powerUpByte a

/-- The byte written last at an address, if any was written since power-up. -/
def Memory.written : Memory → Nat → Option Byte
  | [], _ => none
  | c :: m, a => if c.1 = a then some c.2 else Memory.written m a

/-- `MemRead(a, 1)` (20_memory R42). -/
def Memory.read (m : Memory) (a : Nat) : Byte := (Memory.written m a).getD (Memory.unlisted a)

/-- `MemWrite(a, 1, v)` (20_memory R42), keeping the addresses strictly rising. -/
def Memory.write : Memory → Nat → Byte → Memory
  | [], a, v => [(a, v)]
  | c :: m, a, v =>
    if a < c.1 then (a, v) :: c :: m
    else if a = c.1 then (a, v) :: m
    else c :: Memory.write m a v

/-- The canonical form: the addresses strictly rise. -/
def Memory.wf : Memory → Bool
  | [] => true
  | c :: m => m.all (fun d => decide (c.1 < d.1)) && Memory.wf m

/-- Every listed address is below `n`. -/
def Memory.below (n : Nat) (m : Memory) : Bool := m.all (fun c => decide (c.1 < n))

/-- The address of the byte that holds bits `8i+7 .. 8i` of the word at `a`, by the order of a word's bytes (20_memory
R43: little-endian puts byte `i` at `a + i`; a big-endian build swaps the order). -/
def wordByteAddr (e : Endian) (a i : Nat) : Nat :=
  match e with
  | .little => a + i
  | .big => a + (Config.wordBytes - 1 - i)

/-- `MemRead(a, 4)` (20_memory R43). -/
def Memory.readWord (m : Memory) (a : Nat) : Nat :=
  let b i := (Memory.read m (wordByteAddr Config.wordEndian a i)).toNat
  b 0 ||| (b 1 <<< 8) ||| (b 2 <<< 16) ||| (b 3 <<< 24)

/-- Byte `i` of a word, `v[8i+7:8i]`. -/
def wordByte (v : Word) (i : Nat) : Byte := v.extractLsb' (8 * i) 8

/-- `MemWrite(a, 4, v)` (20_memory R43). -/
def Memory.writeWord (m : Memory) (a : Nat) (v : Word) : Memory :=
  let put i m := Memory.write m (wordByteAddr Config.wordEndian a i) (wordByte v i)
  put 3 (put 2 (put 1 (put 0 m)))

/-! ### Bits, cursor, capacity -/

/-- `mask(k) = 2^k - 1` (00_scope R7). -/
def mask (k : Nat) : Nat := 2 ^ k - 1

/-- `CAP = LEN * 8` bits (00_scope R8). -/
def capacity (s : State) : Nat := s.len.toNat * Config.byteBits

/-- The cursor `BITPOS`, a function of the state (10_state R19). DESIGN CHOICE: where the rule's subtraction would go
below 0, in states that break 10_state R28, it gives 0 (log 9). -/
def bitPos (s : State) : Nat :=
  match s.eng, s.dir with
  | .byte, _ => s.bidx.toNat * 8 + s.boff.toNat
  | .word, .write => s.wptr.toNat * 8 + (32 - s.acnt.toNat)
  | .word, .read => s.wptr.toNat * 8 - s.acnt.toNat

/-- A request of width `w` is served: the width is legal and the request fits the buffer (00_scope R8, the negation of
60_exceptions R143). -/
abbrev Fits (w : Nat) (s : State) : Prop := w ≤ Config.maxWidth ∧ bitPos s + w ≤ capacity s

/-- The session that is open, if one is (10_state R13). -/
def session (s : State) : Option (Dir × Engine) := if s.active then some (s.dir, s.eng) else none

/-! ### How a command ends -/

/-- `ok`: the command's writes are done, STATUS says OK (60_exceptions R140). -/
def complete (s : State) : Host.Outcome State Fault Refusal := .next (setStatusOk s)

/-- `raise E(info)`: STATUS says so and nothing else changes (60_exceptions R141). -/
def raise (e : StatusCode) (info : Nat) (s : State) : Host.Outcome State Fault Refusal := .next (setStatusError e info s)

/-- Complete with a state reached through engine accesses to buffer addresses below `hi`, all of which must exist
(20_memory R40; log 7). -/
def completeWithin (hi : Nat) (s : State) : Host.Outcome State Fault Refusal :=
  if hi ≤ s.cfg.bufMax then complete s else .fault (.engineNoSuchByte (hi - 1))

end Sys2Proof.Machine
end

