-- ==== Sys2Proof/Machine/Operands.lean ====
section
/-! DEFINITION. The operand forms (30_encoding R62, R63): the WIDTH of the command word, which the decoder hands over as
a natural number, and what DATA means to WRITE, OPEN and EXTEND. No operand is signed. -/

namespace Sys2Proof.Machine

/-- WRITE's value: DATA, unsigned, masked to its low `w` bits (30_encoding R63, 40_byte_cursor R80). -/
def valueOperand (w : Nat) (s : State) : Nat := s.data.toNat &&& mask w

/-- The buffer length `n` in bytes that OPEN and EXTEND take from DATA, unsigned (30_encoding R63). -/
def lengthOperand (s : State) : Nat := s.data.toNat

/-- The length breaks 42_session_control R122: it exceeds `BUF_MAX`, or the engine is the word-accumulator and it is no
multiple of the word size. -/
abbrev BadLength (eng : Engine) (n : Nat) (s : State) : Prop :=
  s.cfg.bufMax < n ∨ (eng = .word ∧ n % Config.wordBytes ≠ 0)

end Sys2Proof.Machine
end

