-- ==== Sys2Proof/Machine/SessionControl.lean ====
section
/-! DEFINITION. Session control (42_session_control): OPEN, CLOSE and EXTEND. None is privileged (60_exceptions
R149). -/

namespace Sys2Proof.Machine

/-- `ACNT` at the start of a session (42_session_control R120, R121): an empty pending word in a word write session, else
0. -/
def initialAcnt : Dir → Engine → BitVec 6
  | .write, .word => 32#6
  | .write, .byte => 0#6
  | .read, _ => 0#6

/-- The registers a successful OPEN sets (42_session_control R120): the session, the length, a zero cursor. -/
def startSession (d : Dir) (e : Engine) (s : State) : State :=
  { s with
    active := true
    dir := d
    eng := e
    len := BitVec.ofNat 32 (lengthOperand s)
    bidx := 0#29
    boff := 0#3
    acc := 0#32
    wptr := 0#32
    acnt := initialAcnt d e }

/-- OPEN (42_session_control R120): run when no session is open. -/
def execOpenSession (d : Dir) (e : Engine) (s : State) : Host.Outcome State Fault Refusal :=
  match session s with
  | some _ => raise .eCmd 0 s
  | none => if BadLength e (lengthOperand s) s then raise .eCfg 0 s else complete (startSession d e s)

/-- CLOSE (42_session_control R124): run when a session is open; it never flushes. -/
def execCloseSession (s : State) : Host.Outcome State Fault Refusal :=
  match session s with
  | some _ => complete { s with active := false }
  | none => raise .eCmd 0 s

/-- EXTEND (42_session_control R126): run in a write session; the cursor is kept. -/
def execExtend (s : State) : Host.Outcome State Fault Refusal :=
  match session s with
  | some (.write, e) =>
    let n := lengthOperand s
    if n < s.len.toNat then raise .eCfg 0 s
    else if BadLength e n s then raise .eCfg 0 s
    else complete { s with len := BitVec.ofNat 32 n }
  | some (.read, _) => raise .eCmd 0 s
  | none => raise .eCmd 0 s

end Sys2Proof.Machine
end

