-- ==== Sys2Proof/Machine/ByteCursor.lean ====
section
/-! DEFINITION. The byte-cursor engine (40_byte_cursor): a sub-byte address counter and a shift-and-mask datapath that
moves one chunk of at most 8 bits per touched byte. -/

namespace Sys2Proof.Machine

/-- A place of the byte-cursor counter: byte index and bit offset (10_state R16). -/
structure Cursor where
  idx : Nat
  off : Nat
  deriving DecidableEq, Repr

/-- The width of the next chunk: the bits that still fit byte `idx` (40_byte_cursor R80). -/
def Cursor.chunk (c : Cursor) (n : Nat) : Nat := min n (8 - c.off)

/-- The counter after a chunk of `k` bits, rolling over to the next byte when the offset reaches 8 (40_byte_cursor
R80). -/
def Cursor.advance (c : Cursor) (k : Nat) : Cursor :=
  if c.off + k = 8 then ⟨c.idx + 1, 0⟩ else ⟨c.idx, c.off + k⟩

/-- The loop of WRITE (40_byte_cursor R80): `n` bits still to write, `v` the value left. Every chunk is at least one bit,
so `n` turns are enough. -/
def packLoop : Nat → Nat → Nat → Cursor → Memory → Memory × Cursor
  | 0, _, _, c, m => (m, c)
  | fuel + 1, n, v, c, m =>
    if n = 0 then (m, c)
    else
      let k := c.chunk n
      let chunk := v &&& mask k
      let b := Memory.read m c.idx
      packLoop fuel (n - k) (v >>> k) (c.advance k) (Memory.write m c.idx (b ||| BitVec.ofNat 8 (chunk <<< c.off)))

/-- The loop of READ (40_byte_cursor R84): `n` bits still to read, `r` assembled so far from `done` bits. -/
def unpackLoop (m : Memory) : Nat → Nat → Nat → Nat → Cursor → Nat × Cursor
  | 0, _, r, _, c => (r, c)
  | fuel + 1, n, r, done, c =>
    if n = 0 then (r, c)
    else
      let k := c.chunk n
      let chunk := ((Memory.read m c.idx).toNat >>> c.off) &&& mask k
      unpackLoop m fuel (n - k) (r ||| (chunk <<< done)) (done + k) (c.advance k)

/-- The counter of the state. -/
def cursor (s : State) : Cursor := ⟨s.bidx.toNat, s.boff.toNat⟩

/-- The state with its counter moved, reduced to the registers' widths (00_scope R7, log 10). -/
def setCursor (c : Cursor) (s : State) : State :=
  { s with bidx := BitVec.ofNat 29 c.idx, boff := BitVec.ofNat 3 c.off }

/-- One past the last byte a request of width `w` touches, 0 where it touches none (20_memory R46). -/
def touchedEnd (w : Nat) (s : State) : Nat :=
  if w = 0 then 0 else s.bidx.toNat + (s.boff.toNat + w + 7) / 8

/-- The state WRITE's loop leaves (40_byte_cursor R80): the bytes it ORed into and the counter. -/
def afterPack (w : Nat) (s : State) : State :=
  let out := packLoop w w (valueOperand w s) (cursor s) s.mem
  setCursor out.2 { s with mem := out.1 }

/-- The state READ's loop leaves (40_byte_cursor R84): `RESULT := zext_32(r)` and the counter. -/
def afterUnpack (w : Nat) (s : State) : State :=
  let out := unpackLoop s.mem w w 0 0 (cursor s)
  setCursor out.2 { s with result := BitVec.ofNat 32 out.1 }

/-- WRITE in a byte-cursor session (40_byte_cursor R80). -/
def writeByteCursor (w : Nat) (s : State) : Host.Outcome State Fault Refusal :=
  if Fits w s then completeWithin (touchedEnd w s) (afterPack w s) else raise .eWidth w s

/-- READ in a byte-cursor session (40_byte_cursor R84). -/
def readByteCursor (w : Nat) (s : State) : Host.Outcome State Fault Refusal :=
  if Fits w s then completeWithin (touchedEnd w s) (afterUnpack w s) else raise .eWidth w s

end Sys2Proof.Machine
end

