-- ==== Sys2Proof/Machine/WordAccumulator.lean ====
section
/-! DEFINITION. The word-accumulator engine (41_word_accumulator): a 32-bit pending word filled most significant bit
first, stored and loaded as whole words at WPTR. -/

namespace Sys2Proof.Machine

/-- The word pointer after a word access, `WPTR + 4` (41_word_accumulator R100, R104, R106). -/
def nextWordAddr (s : State) : Nat := s.wptr.toNat + Config.wordBytes

/-- The state after bits went into the free bits of the pending word without filling it (41_word_accumulator R100, branch
`w < F`). -/
def afterPending (w v : Nat) (s : State) : State :=
  let left := s.acnt.toNat - w
  { s with acc := BitVec.ofNat 32 (s.acc.toNat ||| (v <<< left)), acnt := BitVec.ofNat 6 left }

/-- The state after `MemWrite(WPTR, 4, word)`, `WPTR := WPTR + 4` and a new pending word holding `acc` with `free` free
bits (41_word_accumulator R100, R106). -/
def afterStore (word acc free : Nat) (s : State) : State :=
  { s with
    mem := Memory.writeWord s.mem s.wptr.toNat (BitVec.ofNat 32 word)
    wptr := BitVec.ofNat 32 (nextWordAddr s)
    acc := BitVec.ofNat 32 acc
    acnt := BitVec.ofNat 6 free }

/-- The state after a READ that the unread bits of ACC serve (41_word_accumulator R104, branch `w <= A`). -/
def afterUnread (w : Nat) (s : State) : State :=
  let left := s.acnt.toNat - w
  { s with result := BitVec.ofNat 32 ((s.acc.toNat >>> left) &&& mask w), acnt := BitVec.ofNat 6 left }

/-- The state after a READ that takes the unread bits of ACC, loads `MemRead(WPTR, 4)` and takes the rest from it
(41_word_accumulator R104, branch `w > A`). -/
def afterLoad (w : Nat) (s : State) : State :=
  let hi := s.acc.toNat &&& mask s.acnt.toNat
  let lo := w - s.acnt.toNat
  let word := Memory.readWord s.mem s.wptr.toNat
  { s with
    result := BitVec.ofNat 32 ((hi <<< lo) ||| (word >>> (32 - lo)))
    wptr := BitVec.ofNat 32 (nextWordAddr s)
    acc := BitVec.ofNat 32 word
    acnt := BitVec.ofNat 6 (32 - lo) }

/-- WRITE in a word-accumulator session (41_word_accumulator R100): it fits with room to spare, fills the word exactly
and stores it at once (R101), or splits across the flush boundary. -/
def writeWordAccumulator (w : Nat) (s : State) : Host.Outcome State Fault Refusal :=
  if Fits w s then
    let v := valueOperand w s
    let free := s.acnt.toNat
    let acc := s.acc.toNat
    if w < free then complete (afterPending w v s)
    else if w = free then completeWithin (nextWordAddr s) (afterStore (acc ||| v) 0 Config.wordBits s)
    else
      let lo := w - free
      completeWithin (nextWordAddr s) (afterStore (acc ||| (v >>> lo)) ((v &&& mask lo) <<< (32 - lo)) (32 - lo) s)
  else raise .eWidth w s

/-- READ in a word-accumulator session (41_word_accumulator R104): the unread bits are enough, or a fresh word is loaded
on demand (R105). -/
def readWordAccumulator (w : Nat) (s : State) : Host.Outcome State Fault Refusal :=
  if Fits w s then
    if w ≤ s.acnt.toNat then complete (afterUnread w s) else completeWithin (nextWordAddr s) (afterLoad w s)
  else raise .eWidth w s

/-- FLUSH in a word-accumulator write session (41_word_accumulator R106): nothing when the pending word is empty, else
store it with its unused bits 0. -/
def flushPendingWord (s : State) : Host.Outcome State Fault Refusal :=
  if s.acnt.toNat = Config.wordBits then complete s
  else completeWithin (nextWordAddr s) (afterStore s.acc.toNat 0 Config.wordBits s)

end Sys2Proof.Machine
end

