-- ==== Sys2Proof/Machine/Transfer.lean ====
section
/-! DEFINITION. The meanings of WRITE, READ and FLUSH: the rule the open session selects (30_encoding R66), else
E_CMD. -/

namespace Sys2Proof.Machine

/-- WRITE: 40_byte_cursor R80 or 41_word_accumulator R100, in a write session. -/
def execWrite (w : Nat) (s : State) : Host.Outcome State Fault Refusal :=
  match session s with
  | some (.write, .byte) => writeByteCursor w s
  | some (.write, .word) => writeWordAccumulator w s
  | some (.read, _) => raise .eCmd 0 s
  | none => raise .eCmd 0 s

/-- READ: 40_byte_cursor R84 or 41_word_accumulator R104, in a read session. -/
def execRead (w : Nat) (s : State) : Host.Outcome State Fault Refusal :=
  match session s with
  | some (.read, .byte) => readByteCursor w s
  | some (.read, .word) => readWordAccumulator w s
  | some (.write, _) => raise .eCmd 0 s
  | none => raise .eCmd 0 s

/-- FLUSH: 41_word_accumulator R106, in a word-accumulator write session. -/
def execFlush (s : State) : Host.Outcome State Fault Refusal :=
  match session s with
  | some (.write, .word) => flushPendingWord s
  | some (.write, .byte) => raise .eCmd 0 s
  | some (.read, _) => raise .eCmd 0 s
  | none => raise .eCmd 0 s

end Sys2Proof.Machine
end

