-- ==== Sys2Proof/Machine/Dispatch.lean ====
section
/-! DEFINITION. The meaning of every command, one arm per constructor of Instr (30_encoding R64, R66). -/

namespace Sys2Proof.Machine

/-- Run one decoded command, atomically (20_memory R47). -/
def exec (i : Instr) (s : State) : Host.Outcome State Fault Refusal :=
  match i with
  | .openSession d e => Sys2Proof.Machine.execOpenSession d e s
  | .closeSession => Sys2Proof.Machine.execCloseSession s
  | .write w => Sys2Proof.Machine.execWrite w s
  | .read w => Sys2Proof.Machine.execRead w s
  | .flush => Sys2Proof.Machine.execFlush s
  | .extend => Sys2Proof.Machine.execExtend s

end Sys2Proof.Machine
end

