-- ==== Sys2Proof/Machine/Bus.lean ====
section
/-! DEFINITION. The host's side of the block: the register map (10_state R23, R24), issuing a command word (10_state R22,
30_encoding R65), buffer accesses (20_memory R52) and the reset input (70_reset R160). -/

namespace Sys2Proof.Machine

/-- The registers of 10_state R23. -/
inductive Reg where
  | cmd
  | data
  | result
  | status
  | len
  | bitpos
  | acc
  | acnt
  | wptr
  deriving DecidableEq, Repr

/-- The register at a byte offset of the register space (10_state R23); every other offset is unmapped. -/
def regAt (offset : Nat) : Option Reg :=
  match offset with
  | 0x00 => some .cmd
  | 0x04 => some .data
  | 0x08 => some .result
  | 0x0C => some .status
  | 0x10 => some .len
  | 0x14 => some .bitpos
  | 0x18 => some .acc
  | 0x1C => some .acnt
  | 0x20 => some .wptr
  | _ => none

/-- The byte offset of the 32-bit register with this number (20_memory R45: registers are accessed whole). -/
def regOffset (reg : Nat) : Nat := 4 * reg

/-- What a register reads as (10_state R23): CMD holds no state and reads 0 (R22). -/
def regValue (r : Reg) (s : State) : Word :=
  match r with
  | .cmd => 0#32
  | .data => s.data
  | .result => s.result
  | .status => statusWord s
  | .len => s.len
  | .bitpos => BitVec.ofNat 32 (bitPos s)
  | .acc => s.acc
  | .acnt => s.acnt.setWidth 32
  | .wptr => s.wptr

/-- What a read of a register number gives: an unmapped offset reads 0 (10_state R24). -/
def readRegister (reg : Nat) (s : State) : Word :=
  match regAt (regOffset reg) with
  | some r => regValue r s
  | none => 0#32

/-- Execute a word written to CMD as one command (10_state R22); an ILLEGAL word raises E_CMD and does nothing else
(30_encoding R65, R67). -/
def issue (x : Word) (s : State) : Host.Outcome State Fault Refusal :=
  match decode x with
  | .ok i => exec i s
  | .error _ => raise .eCmd 0 s

/-- A register write by the host: CMD runs a command, DATA takes the value, every other register and every unmapped
offset ignores it (10_state R14, R22, R24). -/
def writeRegister (reg : Nat) (v : Word) (s : State) : Host.Outcome State Fault Refusal :=
  match regAt (regOffset reg) with
  | some .cmd => issue v s
  | some .data => .next { s with data := v }
  | some .result => .next s
  | some .status => .next s
  | some .len => .next s
  | some .bitpos => .next s
  | some .acc => .next s
  | some .acnt => .next s
  | some .wptr => .next s
  | none => .next s

/-- The reply of a read reaches the host (60_exceptions R150). -/
def reply (r : Reply) (s : State) : State := { s with replies := s.replies ++ [r] }

/-- A byte write by the host (20_memory R52): any byte with no session, else only bytes at `LEN` and above. -/
def hostWriteByte (a : Nat) (v : Byte) (s : State) : Host.Outcome State Fault Refusal :=
  if s.cfg.bufMax ≤ a then .fault (.hostNoSuchByte a)
  else if s.active = true ∧ a < s.len.toNat then .refused (.hostWriteInSession a)
  else .next { s with mem := Memory.write s.mem a v }

/-- A byte read by the host: any byte, at any time between commands (20_memory R52, 42_session_control R125). -/
def hostReadByte (a : Nat) (s : State) : Host.Outcome State Fault Refusal :=
  if s.cfg.bufMax ≤ a then .fault (.hostNoSuchByte a)
  else .next (reply (.byte (Memory.read s.mem a)) s)

/-- The reset input (70_reset R160): every register takes its reset value; the buffer memory, the parameter and the
host's side stay as they are (log 12). -/
def resetBlock (s : State) : State :=
  { State.reset with cfg := s.cfg, mem := s.mem, pending := s.pending, replies := s.replies }

/-- One move of the host (60_exceptions R150). -/
def hostMove (h : HostMove) (s : State) : Host.Outcome State Fault Refusal :=
  match h with
  | .writeReg reg v => writeRegister reg v s
  | .readReg reg => .next (reply (.register (readRegister reg s)) s)
  | .writeByte a v => hostWriteByte a v s
  | .readByte a => hostReadByte a s
  | .reset => .next (resetBlock s)

/-- Take the host's next move; with none the block waits, and nothing changes (10_state R11: the block fetches nothing;
60_exceptions R155: it has no halt). -/
def nextMove (s : State) : Host.Outcome State Fault Refusal :=
  match s.pending with
  | [] => .next s
  | h :: rest => hostMove h { s with pending := rest }

/-- The move that writes a command word to CMD, the register at offset 0x00 (10_state R22, R23). -/
def commandMove (x : Word) : HostMove := .writeReg 0 x

end Sys2Proof.Machine
end

