-- ==== Sys2Proof/Machine/Step.lean ====
section
/-! DEFINITION. The step of the machine: one access of the host, or one whole command, which is what 20_memory R48
interleaves. -/

namespace Sys2Proof.Machine

/-- One step. -/
def step (s : State) : Host.Outcome State Fault Refusal := nextMove s

/-- The state with a command about to be issued: the block fetches nothing, commands arrive as the host's writes to CMD
(10_state R11, R22), so the word becomes the host's next move (log 3). A command is one 32-bit word (30_encoding
R61). -/
def State.withFetchWord (s : State) (nbits w : Nat) : State :=
  { s with pending := commandMove (BitVec.ofNat 32 (w % 2 ^ nbits)) :: s.pending }

end Sys2Proof.Machine
end

