-- ==== Sys2Proof/Safety.lean ====
section
/-! DEFINITION. The terms claims are stated in: the invariants between two commands (10_state R28), the buffer as a bit
stream (20_memory R44), the dispatch table (30_encoding R66) and sessions as sequences of commands (40_byte_cursor R86,
41_word_accumulator R109). -/

namespace Sys2Proof.Machine

/-- A session of this direction and engine is open (10_state R13). -/
abbrev InSession (d : Dir) (e : Engine) (s : State) : Prop := s.active = true ∧ s.dir = d ∧ s.eng = e

/-- What holds between any two commands: the six items of 10_state R28, with what 10_state R18, R19 and R21 add about
the read side of the word engine and about EWIDTH, and the canonical form of the memory (log 13). -/
structure Invariants (s : State) : Prop where
  /-- R28 item 1. -/
  len_le_bufMax : s.len.toNat ≤ s.cfg.bufMax
  /-- R28 item 2. -/
  bitPos_le_capacity : bitPos s ≤ capacity s
  /-- R28 item 3 (the range of BOFF is its type). -/
  boff_zero_at_end : s.bidx.toNat = s.len.toNat → s.boff = 0#3
  /-- R28 item 4, the range of ACNT. -/
  acnt_le : s.acnt.toNat ≤ 32
  /-- R28 item 4: between commands a word write session has room in the pending word. -/
  acnt_pos : InSession .write .word s → 1 ≤ s.acnt.toNat
  /-- R28 item 4 and R17: the free bits of the pending word are 0 (R17 says so with ACNT = 32 too, where R28 item 4 asks
  nothing: an empty pending word is 0). -/
  free_bits_zero : InSession .write .word s → s.acc.toNat &&& mask s.acnt.toNat = 0
  /-- R28 item 5. -/
  wptr_aligned : s.wptr.toNat % 4 = 0
  /-- R28 item 5. -/
  wptr_le_len : s.active = true → s.eng = .word → s.wptr.toNat ≤ s.len.toNat
  /-- R28 item 5. -/
  len_aligned : s.active = true → s.eng = .word → s.len.toNat % 4 = 0
  /-- R28 item 6. -/
  word_side_idle : s.eng = .byte → s.acc = 0#32 ∧ s.acnt = 0#6 ∧ s.wptr = 0#32
  /-- R28 item 6. -/
  byte_side_idle : s.eng = .word → s.bidx = 0#29 ∧ s.boff = 0#3
  /-- R19: a word is loaded before its bits are counted. -/
  loaded_before_counted : s.eng = .word → s.dir = .read → s.acnt.toNat ≤ s.wptr.toNat * 8
  /-- R18: in a read session ACC holds the last word loaded. -/
  acc_is_last_word : InSession .read .word s → s.acnt.toNat ≠ 0 →
    s.acc.toNat = Memory.readWord s.mem (s.wptr.toNat - 4)
  /-- R21: EWIDTH is 0 unless the code is E_WIDTH. -/
  ewidth_zero : s.code ≠ .eWidth → s.ewidth = 0#6
  /-- The memory is in canonical form, the model's choice (log 1). -/
  mem_wf : Memory.wf s.mem = true
  /-- Only bytes that exist were written (20_memory R40): the list that says so is the model's choice (log 1). -/
  mem_below : Memory.below s.cfg.bufMax s.mem = true

/-- The first `n` buffer bytes read as one little-endian natural, the `B` of 40_byte_cursor R81:
`sum over a < n of MemRead(a, 1) << (8a)`. -/
def bufferNat (m : Memory) : Nat → Nat
  | 0 => 0
  | n + 1 => bufferNat m n + ((Memory.read m n).toNat <<< (8 * n))

/-- Bit `j` of the word-accumulator engine's stream as the buffer holds it: bit `31 - (j mod 32)` of word `floor(j / 32)`
(20_memory R44, 41_word_accumulator R102). -/
def wordStreamBit (m : Memory) (j : Nat) : Bool := (Memory.readWord m (4 * (j / 32))).testBit (31 - j % 32)

/-- Bit `j` of a write session's stream: from the buffer if its word is stored, else from the pending word
(41_word_accumulator R102). -/
def writtenStreamBit (s : State) (j : Nat) : Bool :=
  if j / 32 < s.wptr.toNat / 4 then wordStreamBit s.mem j else s.acc.toNat.testBit (31 - j % 32)

/-- The table of 30_encoding R66: the command runs its rule in this session state, where the table gives E_CMD it does
not. -/
def allowed : Instr → State → Bool
  | .openSession _ _, s => !s.active
  | .closeSession, s => s.active
  | .write _, s => s.active && decide (s.dir = .write)
  | .read _, s => s.active && decide (s.dir = .read)
  | .flush, s => s.active && decide (s.dir = .write) && decide (s.eng = .word)
  | .extend, s => s.active && decide (s.dir = .write)

/-- The WIDTH operand of a command, 0 where it has none (30_encoding R61). -/
def widthOf : Instr → Nat
  | .write w => w
  | .read w => w
  | .openSession _ _ => 0
  | .closeSession => 0
  | .flush => 0
  | .extend => 0

/-- The state after a command, if it completes with OK. -/
def okNext : Host.Outcome State Fault Refusal → Option State
  | .next t => if t.code = .ok then some t else none
  | .fault _ => none
  | .refused _ => none

/-- Run a command with an operand in DATA, going on only if it completes with OK. -/
def runOk (i : Instr) (operand : Word) (s : State) : Option State := okNext (exec i { s with data := operand })

/-- WRITE each value with its width, in order; `none` as soon as one does not complete with OK. -/
def writeAll : List (Word × Nat) → State → Option State
  | [], s => some s
  | (v, w) :: rest, s => (runOk (.write w) v s).bind (writeAll rest)

/-- READ each width in order, with the RESULT after each; `none` as soon as one does not complete with OK. -/
def readAll : List Nat → State → Option (List Word × State)
  | [], s => some ([], s)
  | w :: rest, s => (okNext (exec (.read w) s)).bind fun t =>
      (readAll rest t).map fun out => (t.result :: out.1, out.2)

end Sys2Proof.Machine
end

