-- ==== Sys2Proof/Certificates/Slice0/Obligations.lean ====
section
/-! DEFINITION. The statements of this row, each from a numbered rule of the spec. A statement's hypotheses are about the
state and the operands alone; `Invariants` is 10_state R28, itself a statement (StepKeepsInvariants). -/

open Sys2Proof Sys2Proof.Machine

/-! ### Encoding -/

/-- 30_encoding R64, R69: every command that has an encoding decodes from it, with every operand at every value. -/
def Obligations.DecodeOfEncode : Prop := ∀ i : Instr, i.WellFormed → decode (encode i) = .ok i

/-- 30_encoding R64: a word is a command exactly when its fixed bits match; no word matches two rows (the answer of
`decode` is one command); a reserved opcode is no command and runs as E_CMD. -/
def Obligations.DecodeFollowsMaskAndMatch : Prop := ∀ x : Word,
  (∀ d e, decode x = .ok (.openSession d e) ↔
    x &&& 0xFFFFFFCF#32 = 0x00000001#32 ∧ (d = if x.getLsbD 4 then .read else .write) ∧
      e = if x.getLsbD 5 then .word else .byte) ∧
  (decode x = .ok .closeSession ↔ x &&& 0xFFFFFFFF#32 = 0x00000002#32) ∧
  (∀ w, decode x = .ok (.write w) ↔ x &&& 0xFFFFC0FF#32 = 0x00000003#32 ∧ w = x.toNat / 2 ^ 8 % 2 ^ 6) ∧
  (∀ w, decode x = .ok (.read w) ↔ x &&& 0xFFFFC0FF#32 = 0x00000004#32 ∧ w = x.toNat / 2 ^ 8 % 2 ^ 6) ∧
  (decode x = .ok .flush ↔ x &&& 0xFFFFFFFF#32 = 0x00000005#32) ∧
  (decode x = .ok .extend ↔ x &&& 0xFFFFFFFF#32 = 0x00000006#32) ∧
  (x.toNat % 16 = 0 ∨ 7 ≤ x.toNat % 16 → (∃ r, decode x = .error r) ∧
    ∀ s : State, issue x s = .next { s with code := .eCmd, ewidth := 0#6 })

/-- 30_encoding R61, R65: a decoded command has a legal field width and the word is its only encoding: no bit of a word is
ignored. -/
def Obligations.DecodedCommandIsCanonical : Prop := ∀ (x : Word) (i : Instr), decode x = .ok i →
  i.WellFormed ∧ encode i = x

/-- 30_encoding R67 (and R65): a word that matches no row of the opcode map completes with E_CMD and no other effect, as
one step of the machine. -/
def Obligations.IllegalWordRaisesECmd : Prop := ∀ (x : Word) (s : State) (rest : List HostMove),
  s.pending = .writeReg 0 x :: rest →
  ¬ x &&& 0xFFFFFFCF#32 = 0x00000001#32 → ¬ x = 0x00000002#32 → ¬ x &&& 0xFFFFC0FF#32 = 0x00000003#32 →
  ¬ x &&& 0xFFFFC0FF#32 = 0x00000004#32 → ¬ x = 0x00000005#32 → ¬ x = 0x00000006#32 →
  step s = .next { s with pending := rest, code := .eCmd, ewidth := 0#6 }

/-- 30_encoding R69: the command words of the spec's syntax table decode to their commands. -/
def Obligations.SpecWordsDecode : Prop :=
  decode 0x00000001#32 = .ok (.openSession .write .byte) ∧ decode 0x00000011#32 = .ok (.openSession .read .byte) ∧
  decode 0x00000021#32 = .ok (.openSession .write .word) ∧ decode 0x00000031#32 = .ok (.openSession .read .word) ∧
  decode 0x00000002#32 = .ok .closeSession ∧ decode 0x00000A03#32 = .ok (.write 10) ∧
  decode 0x00002004#32 = .ok (.read 32) ∧ decode 0x00000005#32 = .ok .flush ∧ decode 0x00000006#32 = .ok .extend ∧
  decode 0x00003F03#32 = .ok (.write 63) ∧ (∃ r, decode 0x00004003#32 = .error r)

/-! ### The step, the host's moves, reset -/

/-- 10_state R22, 30_encoding R60: a host write of a word to CMD executes it as one command, in one step; the step adds
only the removal of the move. -/
def Obligations.StepRunsDecodedCommand : Prop :=
  ∀ (x : Word) (i : Instr) (s : State) (rest : List HostMove), s.pending = .writeReg 0 x :: rest → decode x = .ok i →
    step s = exec i { s with pending := rest }

/-- `State.withFetchWord` (log 3): the very next step runs exactly the command of the word. -/
def Obligations.FetchWordRunsNext : Prop := ∀ (x : Word) (i : Instr) (s : State), decode x = .ok i →
  step (s.withFetchWord 32 x.toNat) = exec i s

/-- Log 3, the model's choice: with no host move pending the block waits, unchanged (10_state R11, 60_exceptions R155: it
fetches nothing and has no halt). -/
def Obligations.IdleBlockWaits : Prop := ∀ s : State, s.pending = [] → step s = .next s

/-- 10_state R29: the reset value of every register, so BITPOS is 0 too; and, by log 1, every buffer byte is the free
byte of power-up. -/
def Obligations.ResetValues : Prop :=
  State.reset.active = false ∧ State.reset.dir = .write ∧ State.reset.eng = .byte ∧ State.reset.data = 0#32 ∧
  State.reset.len = 0#32 ∧ State.reset.bidx = 0#29 ∧ State.reset.boff = 0#3 ∧ State.reset.acc = 0#32 ∧
  State.reset.acnt = 0#6 ∧ State.reset.wptr = 0#32 ∧ State.reset.result = 0#32 ∧ State.reset.code = .ok ∧
  State.reset.ewidth = 0#6 ∧ bitPos State.reset = 0 ∧
  (∀ a, Memory.read State.reset.mem a = Config.powerUpByte a) ∧
  ∀ r, readRegister r State.reset = 0#32

/-- 70_reset R160 (a host move by log 12, the model's choice): the reset input gives every register its reset value, ends a session without a FLUSH and does not touch
the buffer memory. -/
def Obligations.ResetInputKeepsBuffer : Prop := ∀ (s : State) (rest : List HostMove), s.pending = .reset :: rest →
  step s = .next { s with
    active := false, dir := .write, eng := .byte, data := 0#32, len := 0#32, bidx := 0#29, boff := 0#3, acc := 0#32,
    acnt := 0#6, wptr := 0#32, result := 0#32, code := .ok, ewidth := 0#6, pending := rest }

/-- 10_state R23, R24 (registers by number: log 6): what a host register read gives back, for every register number (the register at byte offset
`4 * r`): CMD reads 0, an unmapped offset reads 0; the read has no other effect. -/
def Obligations.RegisterReadsGiveTable : Prop := ∀ (r : Nat) (s : State) (rest : List HostMove),
  s.pending = .readReg r :: rest →
  step s = .next { s with
    pending := rest
    replies := s.replies ++ [.register (
      if r = 1 then s.data
      else if r = 2 then s.result
      else if r = 3 then statusWord s
      else if r = 4 then s.len
      else if r = 5 then BitVec.ofNat 32 (bitPos s)
      else if r = 6 then s.acc
      else if r = 7 then s.acnt.setWidth 32
      else if r = 8 then s.wptr
      else 0#32)] }

/-- 10_state R24, R14: a host write to DATA stores the value; to any register but CMD and DATA, or to an unmapped offset,
it is ignored. Nothing is executed. -/
def Obligations.RegisterWritesOtherThanCmd : Prop := ∀ (r : Nat) (v : Word) (s : State) (rest : List HostMove),
  s.pending = .writeReg r v :: rest → r ≠ 0 →
  step s = .next { s with pending := rest, data := if r = 1 then v else s.data }

/-- 10_state R21: the STATUS word, field by field, with reserved bits reading 0. -/
def Obligations.StatusLayout : Prop := ∀ s : State,
  (statusWord s).toNat = (codeBits s.code).toNat + s.ewidth.toNat * 2 ^ 8 + (if s.active then 2 ^ 16 else 0) +
    (if s.dir = .read then 2 ^ 17 else 0) + (if s.eng = .word then 2 ^ 18 else 0) ∧
  (codeBits .ok).toNat = 0 ∧ (codeBits .eWidth).toNat = 1 ∧ (codeBits .eCmd).toNat = 2 ∧ (codeBits .eCfg).toNat = 3

/-- 20_memory R52 and logs 5, 7 (the model's choice of fault and refusal): the host may write any byte with no session,
and only bytes at LEN and above in a session; an address at BUF_MAX or above does not exist. -/
def Obligations.HostByteWriteOwnership : Prop := ∀ (a : Nat) (v : Byte) (s : State) (rest : List HostMove),
  s.pending = .writeByte a v :: rest →
  (s.cfg.bufMax ≤ a → step s = .fault (.hostNoSuchByte a)) ∧
  (a < s.cfg.bufMax → s.active = true → a < s.len.toNat → step s = .refused (.hostWriteInSession a)) ∧
  (a < s.cfg.bufMax → s.active = false ∨ s.len.toNat ≤ a →
    step s = .next { s with pending := rest, mem := Memory.write s.mem a v })

/-- 20_memory R48: a byte the host wrote is what its next read of that byte gives back, and every other byte is as
before. -/
def Obligations.HostReadsBackWrittenByte : Prop :=
  ∀ (a b : Nat) (v : Byte) (s : State) (rest : List HostMove),
    s.pending = .writeByte a v :: .readByte b :: rest → a < s.cfg.bufMax → b < s.cfg.bufMax →
    s.active = false ∨ s.len.toNat ≤ a →
    ∃ t u, step s = .next t ∧ step t = .next u ∧ u.pending = rest ∧
      u.replies = s.replies ++ [.byte (if b = a then v else Memory.read s.mem b)]

/-- 20_memory R52, 60_exceptions R150: no move of the host but a command or a reset changes the live session: neither its
bytes nor any register but DATA. -/
def Obligations.HostMovesKeepSession : Prop := ∀ (h : HostMove) (s t : State) (rest : List HostMove),
  s.pending = h :: rest → s.active = true → (∀ x, h ≠ .writeReg 0 x) → h ≠ .reset → step s = .next t →
  t = { s with pending := rest, data := t.data, mem := t.mem, replies := t.replies } ∧
    ∀ a, a < s.len.toNat → Memory.read t.mem a = Memory.read s.mem a

/-! ### Invariants and stops -/

/-- 10_state R28, R29: the invariants hold after reset; the clauses on the form of the memory list are the model's choice
(logs 1, 13). -/
def Obligations.ResetMeetsInvariants : Prop := Invariants State.reset

/-- 10_state R28 (log 13): every step from a state that meets the invariants leaves one that meets them; the clauses on the
form of the memory list are the model's choice (logs 1, 13). -/
def Obligations.StepKeepsInvariants : Prop := ∀ s t : State, Invariants s → step s = .next t → Invariants t

/-- Log 1, the model's choice: the memory is a list at strictly rising addresses, its canonical form, of which the spec says
nothing (93_implementation_defined I3 only leaves the power-up bytes open, which is why a list of written bytes was chosen).
Every step keeps that form, from any state, reachable or not. -/
def Obligations.StepKeepsMemoryCanonical : Prop := ∀ s t : State, Memory.wf s.mem = true → step s = .next t →
  Memory.wf t.mem = true

/-- 60_exceptions R140, R141, R148, 20_memory R41, R54: every command of every state that meets the invariants completes
with a status; none faults or is refused. -/
def Obligations.EveryCommandCompletes : Prop := ∀ (i : Instr) (s : State), Invariants s → ∃ t, exec i s = .next t

/-- Logs 5, 7: from a state that meets the invariants a step stops only on a host byte access to an address that does not
exist, or on a host write into the live session's buffer. -/
def Obligations.StepStopsOnHostBreachOnly : Prop := ∀ s : State, Invariants s →
  (∀ f, step s = .fault f → ∃ a rest, s.cfg.bufMax ≤ a ∧ f = .hostNoSuchByte a ∧
    (s.pending = .readByte a :: rest ∨ ∃ v, s.pending = .writeByte a v :: rest)) ∧
  (∀ r, step s = .refused r → ∃ a v rest, r = .hostWriteInSession a ∧ s.active = true ∧ a < s.len.toNat ∧
    s.pending = .writeByte a v :: rest)

/-! ### Status and failure -/

/-- 60_exceptions R143, R145 (and R142, R144): which command reports which code, exactly when, and what EWIDTH then
holds. -/
def Obligations.StatusReportsOutcome : Prop := ∀ (i : Instr) (s t : State), exec i s = .next t →
  (t.code = .eCmd ↔ allowed i s = false) ∧
  (t.code = .eCfg ↔ allowed i s = true ∧
    ((∃ d e, i = .openSession d e ∧ (s.cfg.bufMax < s.data.toNat ∨ (e = .word ∧ s.data.toNat % 4 ≠ 0))) ∨
     (i = .extend ∧ (s.data.toNat < s.len.toNat ∨ s.cfg.bufMax < s.data.toNat ∨
       (s.eng = .word ∧ s.data.toNat % 4 ≠ 0))))) ∧
  (t.code = .eWidth ↔ allowed i s = true ∧
    ∃ w, (i = .write w ∨ i = .read w) ∧ (32 < w ∨ s.len.toNat * 8 < bitPos s + w)) ∧
  t.ewidth = if t.code = .eWidth then BitVec.ofNat 6 (widthOf i) else 0#6

/-- 30_encoding R66, 60_exceptions R144: where the dispatch table gives E_CMD, the command completes with E_CMD and
nothing else changes. -/
def Obligations.WrongSessionRaisesECmd : Prop := ∀ (i : Instr) (s : State), allowed i s = false →
  exec i s = .next { s with code := .eCmd, ewidth := 0#6 }

/-- 60_exceptions R141: a failed command changes only STATUS (EWIDTH the width for E_WIDTH, else 0), and the same command
fails the same way again; the same of an illegal command word. -/
def Obligations.FailureChangesOnlyStatus : Prop :=
  (∀ (i : Instr) (s t : State), exec i s = .next t → t.code ≠ .ok →
    t = { s with code := t.code, ewidth := if t.code = .eWidth then BitVec.ofNat 6 (widthOf i) else 0#6 } ∧
      exec i t = .next t) ∧
  ∀ (x : Word) (r : Illegal) (s : State), decode x = .error r →
    ∃ t, issue x s = .next t ∧ t = { s with code := .eCmd, ewidth := 0#6 } ∧ issue x t = .next t

/-- 60_exceptions R143: WRITE and READ of both engines, in their sessions, raise E_WIDTH with the requested width when it
is above 32 or does not fit, and nothing else changes. -/
def Obligations.WidthErrorLeavesState : Prop := ∀ (w : Nat) (e : Engine) (s : State), w < 64 →
  32 < w ∨ s.len.toNat * 8 < bitPos s + w →
  (InSession .write e s → exec (.write w) s = .next { s with code := .eWidth, ewidth := BitVec.ofNat 6 w }) ∧
  (InSession .read e s → exec (.read w) s = .next { s with code := .eWidth, ewidth := BitVec.ofNat 6 w })

/-- 10_state R12, R13, R14, R15, R20: the frame of every command: which state elements it may write. -/
def Obligations.CommandsWriteOnlyTheirState : Prop := ∀ (i : Instr) (s t : State), exec i s = .next t →
  match i with
  | .openSession _ _ => t = { s with
      active := t.active, dir := t.dir, eng := t.eng, len := t.len, bidx := t.bidx, boff := t.boff, acc := t.acc,
      acnt := t.acnt, wptr := t.wptr, code := t.code, ewidth := t.ewidth }
  | .closeSession => t = { s with active := t.active, code := t.code, ewidth := t.ewidth }
  | .write _ => t = { s with
      bidx := t.bidx, boff := t.boff, acc := t.acc, acnt := t.acnt, wptr := t.wptr, mem := t.mem, code := t.code,
      ewidth := t.ewidth }
  | .read _ => t = { s with
      bidx := t.bidx, boff := t.boff, acc := t.acc, acnt := t.acnt, wptr := t.wptr, result := t.result, code := t.code,
      ewidth := t.ewidth }
  | .flush => t = { s with
      acc := t.acc, acnt := t.acnt, wptr := t.wptr, mem := t.mem, code := t.code, ewidth := t.ewidth }
  | .extend => t = { s with len := t.len, code := t.code, ewidth := t.ewidth }

/-- 20_memory R46: where a command stores: the touched bytes in a byte-cursor write session, the word at WPTR in a
word-accumulator write session, nothing in any other state; every other byte reads as before. -/
def Obligations.StoresOnlyAtTheCursor : Prop := ∀ (i : Instr) (s t : State) (a : Nat), exec i s = .next t →
  (InSession .write .byte s → a < s.bidx.toNat ∨ touchedEnd (widthOf i) s ≤ a) →
  (InSession .write .word s → a < s.wptr.toNat ∨ nextWordAddr s ≤ a) → Memory.read t.mem a = Memory.read s.mem a

/-- 20_memory R53: a read session never writes the buffer memory. -/
def Obligations.ReadSessionNeverWritesBuffer : Prop := ∀ (i : Instr) (s t : State), s.active = true → s.dir = .read →
  exec i s = .next t → t.mem = s.mem

/-- 20_memory R41: no command changes a byte at LEN or above. -/
def Obligations.BytesAboveLenUntouched : Prop := ∀ (i : Instr) (s t : State) (a : Nat), Invariants s → exec i s = .next t →
  s.len.toNat ≤ a → Memory.read t.mem a = Memory.read s.mem a

/-- 20_memory R41: no command reads a byte at LEN or above: with other bytes there it answers the same registers and the
same bytes below LEN. -/
def Obligations.OutcomeIgnoresBytesAboveLen : Prop := ∀ (i : Instr) (s t : State) (m : Memory), Invariants s →
  (∀ a, a < s.len.toNat → Memory.read m a = Memory.read s.mem a) → exec i s = .next t →
  ∃ t', exec i { s with mem := m } = .next t' ∧ t' = { t with mem := t'.mem } ∧
    (∀ a, a < s.len.toNat → Memory.read t'.mem a = Memory.read t.mem a) ∧
    ∀ a, s.len.toNat ≤ a → Memory.read t'.mem a = Memory.read m a

/-- 10_state R19: within one session BITPOS never decreases, whatever the command and its outcome. -/
def Obligations.CursorNeverDecreases : Prop := ∀ (i : Instr) (s t : State), Invariants s → s.active = true →
  exec i s = .next t → bitPos s ≤ bitPos t

/-! ### Session control -/

/-- 42_session_control R120, R121: OPEN in full, its word too: E_CMD in a session, E_CFG on a bad length, else a session of this kind
over `DATA` bytes with a zero cursor and nothing else changed. -/
def Obligations.OpenStartsSession : Prop := ∀ (d : Dir) (e : Engine) (s : State),
  decode (0x00000001#32 ||| (if d = .read then 0x10#32 else 0#32) ||| (if e = .word then 0x20#32 else 0#32)) =
    .ok (.openSession d e) ∧
  (s.active = true → exec (.openSession d e) s = .next { s with code := .eCmd, ewidth := 0#6 }) ∧
  (s.active = false → s.cfg.bufMax < s.data.toNat ∨ (e = .word ∧ s.data.toNat % 4 ≠ 0) →
    exec (.openSession d e) s = .next { s with code := .eCfg, ewidth := 0#6 }) ∧
  (s.active = false → s.data.toNat ≤ s.cfg.bufMax → (e = .word → s.data.toNat % 4 = 0) →
    ∃ t, exec (.openSession d e) s = .next t ∧ bitPos t = 0 ∧
      t = { s with
        active := true, dir := d, eng := e, len := s.data, bidx := 0#29, boff := 0#3, acc := 0#32, wptr := 0#32,
        acnt := if e = .word ∧ d = .write then 32#6 else 0#6, code := .ok, ewidth := 0#6 })

/-- 42_session_control R124: CLOSE, word 0x00000002, ends the session and keeps everything else, the buffer and the pending bits too (it
does not flush); with no session it is E_CMD. -/
def Obligations.CloseEndsSession : Prop := ∀ s : State,
  decode 0x00000002#32 = .ok .closeSession ∧
  (s.active = true → exec .closeSession s = .next { s with active := false, code := .ok, ewidth := 0#6 }) ∧
  (s.active = false → exec .closeSession s = .next { s with code := .eCmd, ewidth := 0#6 })

/-- 42_session_control R126: EXTEND in full, word 0x00000006: E_CMD outside a write session, E_CFG on a shorter or bad length, else only
LEN changes. -/
def Obligations.ExtendEnlargesBuffer : Prop := ∀ s : State,
  decode 0x00000006#32 = .ok .extend ∧
  (¬ (s.active = true ∧ s.dir = .write) → exec .extend s = .next { s with code := .eCmd, ewidth := 0#6 }) ∧
  (s.active = true → s.dir = .write →
    s.data.toNat < s.len.toNat ∨ s.cfg.bufMax < s.data.toNat ∨ (s.eng = .word ∧ s.data.toNat % 4 ≠ 0) →
    exec .extend s = .next { s with code := .eCfg, ewidth := 0#6 }) ∧
  (s.active = true → s.dir = .write → s.len.toNat ≤ s.data.toNat → s.data.toNat ≤ s.cfg.bufMax →
    (s.eng = .word → s.data.toNat % 4 = 0) →
    exec .extend s = .next { s with len := s.data, code := .ok, ewidth := 0#6 })

/-- 70_reset R161: a successful OPEN leaves a state that depends on the parameter, DATA and the buffer memory only; of the
block's other state it keeps RESULT alone. -/
def Obligations.OpenForgetsThePast : Prop := ∀ (d : Dir) (e : Engine) (s s' t : State), s.active = false →
  s'.active = false → s'.cfg = s.cfg → s'.data = s.data → s'.mem = s.mem → exec (.openSession d e) s = .next t →
  t.code = .ok →
  exec (.openSession d e) s' = .next { t with result := s'.result, pending := s'.pending, replies := s'.replies }

/-! ### The byte-cursor engine -/

/-- 40_byte_cursor R81: the stream law of WRITE, with its whole next state: only the covered bytes, the counter and STATUS
change. -/
def Obligations.ByteWriteStreamLaw : Prop := ∀ (w : Nat) (s : State), InSession .write .byte s → Fits w s →
  s.len.toNat ≤ s.cfg.bufMax →
  ∃ t, exec (.write w) s = .next t ∧
    t = { s with
      mem := t.mem, bidx := BitVec.ofNat 29 ((bitPos s + w) / 8), boff := BitVec.ofNat 3 ((bitPos s + w) % 8),
      code := .ok, ewidth := 0#6 } ∧
    bufferNat t.mem s.len.toNat = bufferNat s.mem s.len.toNat ||| ((s.data.toNat &&& mask w) <<< bitPos s) ∧
    bitPos t = bitPos s + w ∧
    ∀ a, (w = 0 ∨ a < bitPos s / 8 ∨ (bitPos s + w - 1) / 8 < a) → Memory.read t.mem a = Memory.read s.mem a

/-- 40_byte_cursor R82: WRITE only sets bits: a buffer bit that is 1 before it is 1 after it. -/
def Obligations.ByteWriteOnlySetsBits : Prop := ∀ (w : Nat) (s t : State) (a b : Nat), InSession .write .byte s →
  exec (.write w) s = .next t → (Memory.read s.mem a).getLsbD b = true → (Memory.read t.mem a).getLsbD b = true

/-- 40_byte_cursor R85: the stream law of READ, with its whole next state. -/
def Obligations.ByteReadStreamLaw : Prop := ∀ (w : Nat) (s : State), InSession .read .byte s → Fits w s →
  s.len.toNat ≤ s.cfg.bufMax →
  ∃ t, exec (.read w) s = .next t ∧
    t = { s with
      result := BitVec.ofNat 32 ((bufferNat s.mem s.len.toNat >>> bitPos s) &&& mask w),
      bidx := BitVec.ofNat 29 ((bitPos s + w) / 8), boff := BitVec.ofNat 3 ((bitPos s + w) % 8),
      code := .ok, ewidth := 0#6 } ∧
    t.result.toNat = (bufferNat s.mem s.len.toNat >>> bitPos s) &&& mask w ∧ bitPos t = bitPos s + w

/-- 40_byte_cursor R86: the round-trip law: what a write session packs into a zeroed buffer, a read session with the same
widths gives back, and every command completes with OK; widths 0 may be mixed in. -/
def Obligations.ByteRoundTrip : Prop := ∀ (items : List (Word × Nat)) (n : Word) (s : State), Invariants s →
  s.active = false → n.toNat ≤ s.cfg.bufMax → (∀ x ∈ items, x.2 ≤ 32) → (items.map Prod.snd).sum ≤ n.toNat * 8 →
  (∀ a, a < n.toNat → Memory.read s.mem a = 0#8) →
  ∃ s1 s2 s3 s4 out, runOk (.openSession .write .byte) n s = some s1 ∧ writeAll items s1 = some s2 ∧
    okNext (exec .closeSession s2) = some s3 ∧ runOk (.openSession .read .byte) n s3 = some s4 ∧
    readAll (items.map Prod.snd) s4 = some out ∧
    out.1 = items.map fun x => BitVec.ofNat 32 (x.1.toNat &&& mask x.2)

/-- 40_byte_cursor R87, 41_word_accumulator R110, masking: bits of DATA above the width change nothing WRITE does, in either
engine and with either outcome. -/
def Obligations.MaskingLaw : Prop := ∀ (w : Nat) (s t : State) (v : Word),
  v.toNat % 2 ^ w = s.data.toNat % 2 ^ w → exec (.write w) s = .next t →
  exec (.write w) { s with data := v } = .next { t with data := v }

/-- 40_byte_cursor R87, 41_word_accumulator R110, boundary: a request for exactly the bits left succeeds and fills the
buffer, one for one bit more fails with E_WIDTH and no other change; both engines, WRITE and READ. -/
def Obligations.BoundaryLaw : Prop := ∀ (e : Engine) (s : State) (r : Nat), Invariants s → bitPos s + r = s.len.toNat * 8 →
  r ≤ 32 →
  (InSession .write e s →
    (∃ t, exec (.write r) s = .next t ∧ t.code = .ok ∧ bitPos t = s.len.toNat * 8) ∧
    exec (.write (r + 1)) s = .next { s with code := .eWidth, ewidth := BitVec.ofNat 6 (r + 1) }) ∧
  (InSession .read e s →
    (∃ t, exec (.read r) s = .next t ∧ t.code = .ok ∧ bitPos t = s.len.toNat * 8) ∧
    exec (.read (r + 1)) s = .next { s with code := .eWidth, ewidth := BitVec.ofNat 6 (r + 1) })

/-- 42_session_control R126, R127, 60_exceptions R153: one growing step of the host's adapter over the byte-cursor engine:
EXTEND to `ceil(need / 8)` bytes keeps the cursor, the WRITE then completes, LEN is `ceil(BITPOS / 8)`, and if every bit
at or past the cursor was 0 before, it is 0 after. -/
def Obligations.AdapterStepGrowsByteBuffer : Prop := ∀ (w : Nat) (v n : Word) (s : State), Invariants s →
  InSession .write .byte s → w ≤ 32 → s.len.toNat * 8 < bitPos s + w → n.toNat = (bitPos s + w + 7) / 8 →
  n.toNat ≤ s.cfg.bufMax →
  ∃ s1 t, runOk .extend n s = some s1 ∧ bitPos s1 = bitPos s ∧ s1.len = n ∧ runOk (.write w) v s1 = some t ∧
    t.len.toNat = (bitPos t + 7) / 8 ∧ bitPos t = bitPos s + w ∧
    ((∀ j, bitPos s ≤ j → j < n.toNat * 8 → (Memory.read s.mem (j / 8)).getLsbD (j % 8) = false) →
      ∀ j, bitPos t ≤ j → j < n.toNat * 8 → (Memory.read t.mem (j / 8)).getLsbD (j % 8) = false)

/-! ### The word-accumulator engine -/

/-- 20_memory R43: the word primitives are little-endian: `MemRead(a, 4)` is the formula, `MemWrite(a, 4, v)` stores the
four bytes and leaves every other, and a word read back is the word stored. -/
def Obligations.WordMemoryIsLittleEndian : Prop := ∀ (m : Memory) (a : Nat) (v : Word),
  (Memory.readWord m a = (Memory.read m a).toNat + (Memory.read m (a + 1)).toNat * 2 ^ 8 +
    (Memory.read m (a + 2)).toNat * 2 ^ 16 + (Memory.read m (a + 3)).toNat * 2 ^ 24) ∧
  Memory.read (Memory.writeWord m a v) a = v.extractLsb' 0 8 ∧
  Memory.read (Memory.writeWord m a v) (a + 1) = v.extractLsb' 8 8 ∧
  Memory.read (Memory.writeWord m a v) (a + 2) = v.extractLsb' 16 8 ∧
  Memory.read (Memory.writeWord m a v) (a + 3) = v.extractLsb' 24 8 ∧
  (∀ x, x < a ∨ a + 4 ≤ x → Memory.read (Memory.writeWord m a v) x = Memory.read m x) ∧
  Memory.readWord (Memory.writeWord m a v) a = v.toNat

/-- 41_word_accumulator R100, R101: WRITE in full, its word and then branch by branch: room to spare, exact fill (stored at once), split
across the flush boundary, and E_WIDTH. -/
def Obligations.WordWriteBranches : Prop := ∀ (w : Nat) (s : State), Invariants s → InSession .write .word s →
  (w < 64 → decode (0x00000003#32 ||| (BitVec.ofNat 32 w <<< 8)) = .ok (.write w)) ∧
  let v := s.data.toNat &&& mask w
  let free := s.acnt.toNat
  (Fits w s → w < free → exec (.write w) s = .next { s with
    acc := BitVec.ofNat 32 (s.acc.toNat ||| (v <<< (free - w))), acnt := BitVec.ofNat 6 (free - w), code := .ok,
    ewidth := 0#6 }) ∧
  (Fits w s → w = free → exec (.write w) s = .next { s with
    mem := Memory.writeWord s.mem s.wptr.toNat (BitVec.ofNat 32 (s.acc.toNat ||| v)), wptr := s.wptr + 4#32,
    acc := 0#32, acnt := 32#6, code := .ok, ewidth := 0#6 }) ∧
  (Fits w s → free < w → exec (.write w) s = .next { s with
    mem := Memory.writeWord s.mem s.wptr.toNat (BitVec.ofNat 32 (s.acc.toNat ||| (v >>> (w - free)))),
    wptr := s.wptr + 4#32, acc := BitVec.ofNat 32 ((v &&& mask (w - free)) <<< (32 - (w - free))),
    acnt := BitVec.ofNat 6 (32 - (w - free)), code := .ok, ewidth := 0#6 }) ∧
  (¬ Fits w s → exec (.write w) s = .next { s with code := .eWidth, ewidth := BitVec.ofNat 6 w })

/-- 41_word_accumulator R102: the stream law of the write side: the bits already in the stream stay, and the value's bits
follow, most significant first. -/
def Obligations.WordWriteStreamLaw : Prop := ∀ (w : Nat) (s : State), Invariants s → InSession .write .word s → Fits w s →
  ∃ t, exec (.write w) s = .next t ∧ bitPos t = bitPos s + w ∧
    (∀ j, j < bitPos s → writtenStreamBit t j = writtenStreamBit s j) ∧
    ∀ i, i < w → writtenStreamBit t (bitPos s + i) = s.data.toNat.testBit (w - 1 - i)

/-- 41_word_accumulator R104, R105: READ in full, its word and then branch by branch: the unread bits serve it with no load, or one word is
loaded on demand, or E_WIDTH. -/
def Obligations.WordReadBranches : Prop := ∀ (w : Nat) (s : State), Invariants s → InSession .read .word s →
  (w < 64 → decode (0x00000004#32 ||| (BitVec.ofNat 32 w <<< 8)) = .ok (.read w)) ∧
  let unread := s.acnt.toNat
  let lo := w - unread
  let word := Memory.readWord s.mem s.wptr.toNat
  (Fits w s → w ≤ unread → exec (.read w) s = .next { s with
    result := BitVec.ofNat 32 ((s.acc.toNat >>> (unread - w)) &&& mask w), acnt := BitVec.ofNat 6 (unread - w),
    code := .ok, ewidth := 0#6 }) ∧
  (Fits w s → unread < w → exec (.read w) s = .next { s with
    result := BitVec.ofNat 32 (((s.acc.toNat &&& mask unread) <<< lo) ||| (word >>> (32 - lo))),
    wptr := s.wptr + 4#32, acc := BitVec.ofNat 32 word, acnt := BitVec.ofNat 6 (32 - lo), code := .ok,
    ewidth := 0#6 }) ∧
  (¬ Fits w s → exec (.read w) s = .next { s with code := .eWidth, ewidth := BitVec.ofNat 6 w })

/-- 41_word_accumulator R104 with 20_memory R44: the stream law of the read side: RESULT is the next `w` bits of the
buffer's stream, most significant first, and the cursor moves past them. -/
def Obligations.WordReadStreamLaw : Prop := ∀ (w : Nat) (s : State), Invariants s → InSession .read .word s → Fits w s →
  ∃ t, exec (.read w) s = .next t ∧ bitPos t = bitPos s + w ∧ t.mem = s.mem ∧
    ∀ i, t.result.getLsbD i = (decide (i < w) && wordStreamBit s.mem (bitPos s + (w - 1 - i)))

/-- 41_word_accumulator R106 (and R108): FLUSH in full, word 0x00000005: nothing when the pending word is empty, so a second FLUSH does
nothing; else the word is stored whole and the cursor moves to the end of it; E_CMD in any other session state. -/
def Obligations.FlushStoresPendingWord : Prop := ∀ s : State, Invariants s →
  decode 0x00000005#32 = .ok .flush ∧
  (InSession .write .word s → s.acnt.toNat = 32 → exec .flush s = .next { s with code := .ok, ewidth := 0#6 }) ∧
  (InSession .write .word s → s.acnt.toNat < 32 → ∃ t, exec .flush s = .next t ∧
    t = { s with
      mem := Memory.writeWord s.mem s.wptr.toNat s.acc, wptr := s.wptr + 4#32, acc := 0#32, acnt := 32#6, code := .ok,
      ewidth := 0#6 } ∧
    bitPos t = s.wptr.toNat * 8 + 32 ∧ exec .flush t = .next t) ∧
  (¬ InSession .write .word s → exec .flush s = .next { s with code := .eCmd, ewidth := 0#6 })

/-- 41_word_accumulator R109: the round-trip law: with one FLUSH before CLOSE, what a write session packs a read session
with the same widths gives back; no zeroed buffer is needed. -/
def Obligations.WordRoundTrip : Prop := ∀ (items : List (Word × Nat)) (n : Word) (s : State), Invariants s →
  s.active = false → n.toNat % 4 = 0 → n.toNat ≤ s.cfg.bufMax → (∀ x ∈ items, x.2 ≤ 32) →
  (items.map Prod.snd).sum ≤ n.toNat * 8 →
  ∃ s1 s2 s3 s4 s5 out, runOk (.openSession .write .word) n s = some s1 ∧ writeAll items s1 = some s2 ∧
    okNext (exec .flush s2) = some s3 ∧ okNext (exec .closeSession s3) = some s4 ∧
    runOk (.openSession .read .word) n s4 = some s5 ∧ readAll (items.map Prod.snd) s5 = some out ∧
    out.1 = items.map fun x => BitVec.ofNat 32 (x.1.toNat &&& mask x.2)

/-- 42_session_control R126, R127, 60_exceptions R153: the adapter over the word engine grows in whole words: EXTEND to
`4 * ceil(need / 32)` bytes keeps the cursor and the pending word, and the WRITE then completes. -/
def Obligations.AdapterStepGrowsWordBuffer : Prop := ∀ (w : Nat) (v n : Word) (s : State), Invariants s →
  InSession .write .word s → w ≤ 32 → s.len.toNat * 8 < bitPos s + w → n.toNat = 4 * ((bitPos s + w + 31) / 32) →
  n.toNat ≤ s.cfg.bufMax →
  ∃ s1 t, runOk .extend n s = some s1 ∧ bitPos s1 = bitPos s ∧ s1.acc = s.acc ∧ s1.len = n ∧
    runOk (.write w) v s1 = some t ∧ t.len.toNat = 4 * ((bitPos t + 31) / 32) ∧ bitPos t = bitPos s + w
end

