-- ==== Sys2Proof/Laws/Memory.lean ====
section
/-! SUPPORT. The laws of the buffer memory: a read after a write, the canonical form, words as four bytes. -/

namespace Sys2Proof.Machine

theorem Memory.written_write_same (m : Memory) (a : Nat) (v : Byte) :
    Memory.written (Memory.write m a v) a = some v := by
  induction m with
  | nil => simp [Memory.write, Memory.written]
  | cons c m ih =>
    unfold Memory.write
    split
    · simp [Memory.written]
    · split
      · simp [Memory.written]
      · rename_i h1 h2
        simp only [Memory.written]
        rw [if_neg (fun h => h2 h.symm), ih]

theorem Memory.written_write_ne (m : Memory) {a x : Nat} (v : Byte) (h : x ≠ a) :
    Memory.written (Memory.write m a v) x = Memory.written m x := by
  induction m with
  | nil => simp [Memory.write, Memory.written, h.symm]
  | cons c m ih =>
    unfold Memory.write
    split
    · simp [Memory.written, h.symm]
    · split
      · rename_i h1 h2
        subst h2
        simp [Memory.written, h.symm]
      · simp only [Memory.written, ih]

/-- A read after a write to the same byte gives the value written (20_memory R42). -/
@[simp] theorem Memory.read_write_same (m : Memory) (a : Nat) (v : Byte) :
    Memory.read (Memory.write m a v) a = v := by
  simp [Memory.read, Memory.written_write_same]

/-- A write leaves every other byte alone (20_memory R42). -/
theorem Memory.read_write_ne (m : Memory) {a x : Nat} (v : Byte) (h : x ≠ a) :
    Memory.read (Memory.write m a v) x = Memory.read m x := by
  simp [Memory.read, Memory.written_write_ne m v h]

theorem Memory.read_write (m : Memory) (a x : Nat) (v : Byte) :
    Memory.read (Memory.write m a v) x = if x = a then v else Memory.read m x := by
  split
  · next h => rw [h, Memory.read_write_same]
  · next h => exact Memory.read_write_ne m v h

/-- A byte nothing has written is the free byte of power-up (log 1). -/
@[simp] theorem Memory.read_nil (a : Nat) : Memory.read [] a = Config.powerUpByte a := rfl

/-! ### The canonical form -/

theorem Memory.all_write (p : Host.Cell → Bool) (m : Memory) {a : Nat} {v : Byte} (hm : m.all p = true)
    (hp : p (a, v) = true) : (Memory.write m a v).all p = true := by
  induction m with
  | nil => simp [Memory.write, hp]
  | cons c m ih =>
    rw [List.all_cons, Bool.and_eq_true] at hm
    unfold Memory.write
    split
    · simp [hp, hm.1, hm.2]
    · split
      · simp [hp, hm.2]
      · simp [hm.1, ih hm.2]

/-- A write keeps the canonical form. -/
theorem Memory.wf_write {m : Memory} (a : Nat) (v : Byte) (h : Memory.wf m = true) :
    Memory.wf (Memory.write m a v) = true := by
  induction m with
  | nil => simp [Memory.write, Memory.wf]
  | cons c m ih =>
    rw [Memory.wf, Bool.and_eq_true] at h
    obtain ⟨hc, hm⟩ := h
    unfold Memory.write
    split
    · next hlt =>
      simp only [Memory.wf, hc, hm, Bool.and_true, List.all_cons, decide_eq_true_eq, Bool.and_eq_true]
      refine ⟨hlt, ?_⟩
      rw [List.all_eq_true] at hc ⊢
      intro d hd
      have := hc d hd
      simp only [decide_eq_true_eq] at this ⊢
      omega
    · split
      · next h1 h2 =>
        subst h2
        simp [Memory.wf, hm, hc]
      · next h1 h2 =>
        simp only [Memory.wf, ih hm, Bool.and_true]
        exact Memory.all_write _ m hc (by simp only [decide_eq_true_eq]; omega)

/-- A write below `n` keeps every listed address below `n`. -/
theorem Memory.below_write {n a : Nat} {m : Memory} (v : Byte) (h : Memory.below n m = true) (ha : a < n) :
    Memory.below n (Memory.write m a v) = true :=
  Memory.all_write _ m h (by simpa using ha)

/-! ### Words -/

@[simp] theorem wordByteAddr_little (a i : Nat) : wordByteAddr Config.wordEndian a i = a + i := rfl

/-- What a word store leaves at every address (20_memory R43). -/
theorem Memory.read_writeWord (m : Memory) (a x : Nat) (v : Word) :
    Memory.read (Memory.writeWord m a v) x =
      if a ≤ x ∧ x < a + 4 then wordByte v (x - a) else Memory.read m x := by
  simp only [Memory.writeWord, wordByteAddr_little, Memory.read_write, Nat.add_zero]
  by_cases h0 : x = a
  · subst h0; simp
  by_cases h1 : x = a + 1
  · subst h1; simp
  by_cases h2 : x = a + 2
  · subst h2; simp
  by_cases h3 : x = a + 3
  · subst h3; simp
  have hn : ¬ (a ≤ x ∧ x < a + 4) := by omega
  simp [h0, h1, h2, h3, hn]

/-- A word store leaves every other byte alone. -/
theorem Memory.read_writeWord_ne (m : Memory) {a x : Nat} (v : Word) (h : ¬ (a ≤ x ∧ x < a + 4)) :
    Memory.read (Memory.writeWord m a v) x = Memory.read m x := by
  rw [Memory.read_writeWord, if_neg h]

theorem Memory.wf_writeWord {m : Memory} (a : Nat) (v : Word) (h : Memory.wf m = true) :
    Memory.wf (Memory.writeWord m a v) = true :=
  Memory.wf_write _ _ (Memory.wf_write _ _ (Memory.wf_write _ _ (Memory.wf_write _ _ h)))

theorem Memory.below_writeWord {n a : Nat} {m : Memory} (v : Word) (h : Memory.below n m = true) (ha : a + 4 ≤ n) :
    Memory.below n (Memory.writeWord m a v) = true := by
  refine Memory.below_write _ (Memory.below_write _ (Memory.below_write _ (Memory.below_write _ h ?_) ?_) ?_) ?_ <;>
    (rw [wordByteAddr_little]; omega)

/-- The bits of a word as four bytes (20_memory R43). -/
theorem Memory.testBit_readWord (m : Memory) (a i : Nat) :
    (Memory.readWord m a).testBit i = (decide (i < 32) && (Memory.read m (a + i / 8)).getLsbD (i % 8)) := by
  have hb : ∀ (b : Byte) j, b.toNat.testBit j = b.getLsbD j := fun _ _ => rfl
  simp only [Memory.readWord, wordByteAddr_little, Nat.testBit_or, Nat.testBit_shiftLeft, hb]
  by_cases h : i < 32
  · have : i = 8 * (i / 8) + i % 8 := by omega
    have h8 : i % 8 < 8 := Nat.mod_lt _ (by decide)
    have hq : i / 8 < 4 := by omega
    generalize hj : i % 8 = j at *
    generalize hk : i / 8 = k at *
    subst this
    have hz : ∀ (b : Byte) n, 8 ≤ n → b.getLsbD n = false := fun b n hn => BitVec.getLsbD_of_ge b n hn
    have hlt : ∀ n, 8 ≤ n → ¬ (n ≤ j) := by omega
    interval_cases k
    · simp [hlt, show j < 32 by omega]
    · simp [show ¬ (16 ≤ 8 + j) by omega, show ¬ (24 ≤ 8 + j) by omega, show 8 + j < 32 by omega]
    · simp [hz _ (16 + j) (by omega), hz _ (16 + j - 8) (by omega), show ¬ (24 ≤ 16 + j) by omega,
        show 16 + j < 32 by omega]
    · simp [hz _ (24 + j) (by omega), hz _ (24 + j - 8) (by omega), hz _ (24 + j - 16) (by omega),
        show 24 + j < 32 by omega]
  · simp only [h, decide_false, Bool.false_and]
    rw [BitVec.getLsbD_of_ge _ _ (by omega), BitVec.getLsbD_of_ge _ _ (by omega), BitVec.getLsbD_of_ge _ _ (by omega),
      BitVec.getLsbD_of_ge _ _ (by omega)]
    simp

theorem Memory.readWord_lt (m : Memory) (a : Nat) : Memory.readWord m a < 2 ^ 32 := by
  apply Nat.lt_pow_two_of_testBit
  intro i hi
  rw [Memory.testBit_readWord]
  simp only [Bool.and_eq_false_iff, decide_eq_false_iff_not]
  omega

/-- A word is read from its four bytes alone. -/
theorem Memory.readWord_congr {m m' : Memory} {a : Nat}
    (h : ∀ x, a ≤ x → x < a + 4 → Memory.read m x = Memory.read m' x) : Memory.readWord m a = Memory.readWord m' a := by
  simp only [Memory.readWord, wordByteAddr_little]
  rw [h (a + 0) (by omega) (by omega), h (a + 1) (by omega) (by omega), h (a + 2) (by omega) (by omega),
    h (a + 3) (by omega) (by omega)]

/-- A word read after a word store to the same address gives the word stored. -/
@[simp] theorem Memory.readWord_writeWord (m : Memory) (a : Nat) (v : Word) :
    Memory.readWord (Memory.writeWord m a v) a = v.toNat := by
  apply Nat.eq_of_testBit_eq
  intro i
  rw [Memory.testBit_readWord, Memory.read_writeWord]
  by_cases h : i < 32
  · have h1 : a ≤ a + i / 8 ∧ a + i / 8 < a + 4 := by omega
    rw [if_pos h1]
    simp only [h, decide_true, Bool.true_and, wordByte, Nat.add_sub_cancel_left, BitVec.getLsbD_extractLsb',
      Nat.mod_lt i (by decide : 8 > 0), decide_true, Bool.true_and]
    rw [show 8 * (i / 8) + i % 8 = i by omega]
    rfl
  · simp only [h, decide_false, Bool.false_and]
    exact (BitVec.getLsbD_of_ge v i (by omega)).symm

/-- A word read elsewhere is not changed by a word store. -/
theorem Memory.readWord_writeWord_ne (m : Memory) {a x : Nat} (v : Word) (h : x + 4 ≤ a ∨ a + 4 ≤ x) :
    Memory.readWord (Memory.writeWord m a v) x = Memory.readWord m x :=
  Memory.readWord_congr fun y h1 h2 => Memory.read_writeWord_ne m v (by omega)

/-! ### The mask -/

theorem testBit_mask (k i : Nat) : (mask k).testBit i = decide (i < k) := by simp [mask]

theorem and_mask (v k : Nat) : v &&& mask k = v % 2 ^ k := by simp [mask, Nat.and_two_pow_sub_one_eq_mod]

end Sys2Proof.Machine
end

