-- ==== Sys2Proof/Laws/ByteCursor.lean ====
section
/-! SUPPORT. The two loops of the byte-cursor engine in closed form: where the counter ends, and every bit they write or
read. -/

namespace Sys2Proof.Machine

/-- The stream position of the counter (10_state R19). -/
def Cursor.pos (c : Cursor) : Nat := c.idx * 8 + c.off

/-- The counter at a stream position. -/
def Cursor.ofPos (p : Nat) : Cursor := ⟨p / 8, p % 8⟩

theorem Cursor.ofPos_pos {c : Cursor} (h : c.off < 8) : Cursor.ofPos c.pos = c := by
  cases c
  simp only [Cursor.ofPos, Cursor.pos, Cursor.mk.injEq] at *
  omega

theorem Cursor.chunk_pos {c : Cursor} {n : Nat} (h : c.off < 8) (hn : n ≠ 0) : 1 ≤ c.chunk n := by
  simp only [Cursor.chunk]; omega

theorem Cursor.chunk_le (c : Cursor) (n : Nat) : c.chunk n ≤ n := Nat.min_le_left _ _

theorem Cursor.chunk_fits {c : Cursor} (n : Nat) (h : c.off < 8) : c.off + c.chunk n ≤ 8 := by
  simp only [Cursor.chunk]; omega

/-- A chunk that stays in its byte moves the counter by its width, and the offset stays an offset. -/
theorem Cursor.advance_spec {c : Cursor} {k : Nat} (h : c.off + k ≤ 8) :
    (c.advance k).pos = c.pos + k ∧ (c.advance k).off < 8 := by
  simp only [Cursor.advance, Cursor.pos]
  split <;> simp <;> omega

/-! ### WRITE's loop -/

/-- Where WRITE's loop leaves the counter (40_byte_cursor R81). -/
theorem packLoop_cursor (fuel : Nat) : ∀ (n v : Nat) (c : Cursor) (m : Memory), n ≤ fuel → c.off < 8 →
    (packLoop fuel n v c m).2 = Cursor.ofPos (c.pos + n) := by
  induction fuel with
  | zero =>
    intro n v c m hn hc
    obtain rfl : n = 0 := by omega
    exact (Cursor.ofPos_pos hc).symm
  | succ fuel ih =>
    intro n v c m hn hc
    unfold packLoop
    split
    · next h => subst h; exact (Cursor.ofPos_pos hc).symm
    · next h =>
      have h1 := Cursor.chunk_pos hc h
      have h2 := Cursor.chunk_le c n
      have h3 := Cursor.advance_spec (Cursor.chunk_fits n hc)
      rw [ih _ _ _ _ (by omega) h3.2, h3.1]
      congr 1
      omega

/-- Every bit WRITE's loop leaves: the old bit, or the value's bit where the request covers the place (40_byte_cursor R80,
R81). -/
theorem packLoop_bit (fuel : Nat) : ∀ (n v : Nat) (c : Cursor) (m : Memory), n ≤ fuel → c.off < 8 → ∀ a b, b < 8 →
    (Memory.read (packLoop fuel n v c m).1 a).getLsbD b =
      ((Memory.read m a).getLsbD b ||
        (decide (c.pos ≤ a * 8 + b ∧ a * 8 + b < c.pos + n) && v.testBit (a * 8 + b - c.pos))) := by
  induction fuel with
  | zero =>
    intro n v c m hn hc a b hb
    obtain rfl : n = 0 := by omega
    simp [packLoop]
  | succ fuel ih =>
    intro n v c m hn hc a b hb
    unfold packLoop
    split
    · next h =>
      subst h
      simp
    · next h =>
      have h1 := Cursor.chunk_pos hc h
      have h2 := Cursor.chunk_le c n
      have h4 := Cursor.chunk_fits n hc
      have h3 := Cursor.advance_spec h4
      simp only
      generalize hk : c.chunk n = k at *
      rw [ih _ _ _ _ (by omega) h3.2 a b hb, h3.1, Memory.read_write]
      have hpos : c.pos = c.idx * 8 + c.off := rfl
      rw [Nat.testBit_shiftRight]
      by_cases ha : a = c.idx
      · subst ha
        simp only [if_true, BitVec.getLsbD_or, BitVec.getLsbD_ofNat, hb, decide_true, Bool.true_and,
          Nat.testBit_shiftLeft, Nat.testBit_and, testBit_mask]
        by_cases hlo : b < c.off
        · have e1 : ¬ (c.pos + k ≤ c.idx * 8 + b ∧ c.idx * 8 + b < c.pos + k + (n - k)) := by omega
          have e2 : ¬ (c.pos ≤ c.idx * 8 + b ∧ c.idx * 8 + b < c.pos + n) := by omega
          have e3 : ¬ (c.off ≤ b) := by omega
          simp [e1, e2, e3]
        · by_cases hin : b - c.off < k
          · have e1 : ¬ (c.pos + k ≤ c.idx * 8 + b ∧ c.idx * 8 + b < c.pos + k + (n - k)) := by omega
            have e2 : c.pos ≤ c.idx * 8 + b ∧ c.idx * 8 + b < c.pos + n := by omega
            have e3 : c.off ≤ b := by omega
            rw [show c.idx * 8 + b - c.pos = b - c.off by omega]
            simp [e1, e2, e3, hin]
          · have e4 : k + (c.idx * 8 + b - (c.pos + k)) = c.idx * 8 + b - c.pos := by omega
            rw [e4]
            have e5 : (c.pos + k ≤ c.idx * 8 + b ∧ c.idx * 8 + b < c.pos + k + (n - k)) ↔
                (c.pos ≤ c.idx * 8 + b ∧ c.idx * 8 + b < c.pos + n) := by omega
            simp [hin, e5]
      · rw [if_neg ha]
        have e5 : (c.pos + k ≤ a * 8 + b ∧ a * 8 + b < c.pos + k + (n - k)) ↔
            (c.pos ≤ a * 8 + b ∧ a * 8 + b < c.pos + n) := by
          have : a < c.idx ∨ c.idx < a := by omega
          omega
        by_cases e2 : c.pos + k ≤ a * 8 + b ∧ a * 8 + b < c.pos + k + (n - k)
        · rw [show k + (a * 8 + b - (c.pos + k)) = a * 8 + b - c.pos by omega]
          simp [e2, e5.mp e2]
        · rw [decide_eq_false e2, decide_eq_false (mt e5.mpr e2)]
          simp

/-- Every byte WRITE's loop lists was listed before or lies in the range it covers. -/
theorem packLoop_keeps (fuel : Nat) : ∀ (n v : Nat) (c : Cursor) (m : Memory), n ≤ fuel → c.off < 8 →
    (Memory.wf m = true → Memory.wf (packLoop fuel n v c m).1 = true) ∧
      ∀ hi, c.pos + n ≤ hi * 8 → Memory.below hi m = true → Memory.below hi (packLoop fuel n v c m).1 = true := by
  induction fuel with
  | zero => intro n v c m _ _; exact ⟨id, fun _ _ h => h⟩
  | succ fuel ih =>
    intro n v c m hn hc
    unfold packLoop
    split
    · exact ⟨id, fun _ _ h => h⟩
    · next h =>
      have h1 := Cursor.chunk_pos hc h
      have h2 := Cursor.chunk_le c n
      have h3 := Cursor.advance_spec (Cursor.chunk_fits n hc)
      have hpos : c.pos = c.idx * 8 + c.off := rfl
      simp only
      generalize c.chunk n = k at *
      have key := ih (n - k) (v >>> k) (c.advance k)
        (Memory.write m c.idx (Memory.read m c.idx ||| BitVec.ofNat 8 ((v &&& mask k) <<< c.off))) (by omega) h3.2
      refine ⟨fun hm => key.1 (Memory.wf_write _ _ hm), fun hi hb hm => key.2 hi ?_ (Memory.below_write _ hm ?_)⟩
      · rw [h3.1]; omega
      · omega

/-! ### READ's loop -/

/-- Where READ's loop leaves the counter (40_byte_cursor R85). -/
theorem unpackLoop_cursor (m : Memory) (fuel : Nat) : ∀ (n r k : Nat) (c : Cursor), n ≤ fuel → c.off < 8 →
    (unpackLoop m fuel n r k c).2 = Cursor.ofPos (c.pos + n) := by
  induction fuel with
  | zero =>
    intro n r k c hn hc
    obtain rfl : n = 0 := by omega
    exact (Cursor.ofPos_pos hc).symm
  | succ fuel ih =>
    intro n r k c hn hc
    unfold unpackLoop
    split
    · next h => subst h; exact (Cursor.ofPos_pos hc).symm
    · next h =>
      have h1 := Cursor.chunk_pos hc h
      have h2 := Cursor.chunk_le c n
      have h3 := Cursor.advance_spec (Cursor.chunk_fits n hc)
      rw [ih _ _ _ _ (by omega) h3.2, h3.1]
      congr 1
      omega

/-- Every bit READ's loop assembles: what was there, or the buffer's bit at its place (40_byte_cursor R84, R85). -/
theorem unpackLoop_bit (m : Memory) (fuel : Nat) : ∀ (n r done : Nat) (c : Cursor), n ≤ fuel → c.off < 8 → ∀ i,
    (unpackLoop m fuel n r done c).1.testBit i =
      (r.testBit i || (decide (done ≤ i ∧ i < done + n) &&
        (Memory.read m ((c.pos + (i - done)) / 8)).getLsbD ((c.pos + (i - done)) % 8))) := by
  induction fuel with
  | zero =>
    intro n r done c hn hc i
    obtain rfl : n = 0 := by omega
    simp [unpackLoop]
  | succ fuel ih =>
    intro n r done c hn hc i
    unfold unpackLoop
    split
    · next h =>
      subst h
      simp
    · next h =>
      have h1 := Cursor.chunk_pos hc h
      have h2 := Cursor.chunk_le c n
      have h4 := Cursor.chunk_fits n hc
      have h3 := Cursor.advance_spec h4
      have hpos : c.pos = c.idx * 8 + c.off := rfl
      simp only
      generalize hk : c.chunk n = k at *
      have hb : ∀ (b : Byte) j, b.toNat.testBit j = b.getLsbD j := fun _ _ => rfl
      rw [ih _ _ _ _ (by omega) h3.2 i, h3.1]
      simp only [Nat.testBit_or, Nat.testBit_shiftLeft, Nat.testBit_and, Nat.testBit_shiftRight, testBit_mask, hb]
      by_cases hlo : i < done
      · have e1 : ¬ (done + k ≤ i ∧ i < done + k + (n - k)) := by omega
        have e3 : ¬ (done ≤ i) := by omega
        simp [e1, e3]
      · by_cases hin : i - done < k
        · have e1 : ¬ (done + k ≤ i ∧ i < done + k + (n - k)) := by omega
          have e2 : done ≤ i ∧ i < done + n := by omega
          have e4 : (c.pos + (i - done)) / 8 = c.idx := by omega
          have e5 : (c.pos + (i - done)) % 8 = c.off + (i - done) := by omega
          simp [e1, e2, e4, e5, hin]
        · have e5 : (done + k ≤ i ∧ i < done + k + (n - k)) ↔ (done ≤ i ∧ i < done + n) := by omega
          by_cases e2 : done ≤ i ∧ i < done + n
          · have e6 := e5.mpr e2
            rw [show c.pos + k + (i - (done + k)) = c.pos + (i - done) by omega]
            simp [e2, e6, hin]
          · rw [decide_eq_false (mt e5.mp e2), decide_eq_false e2, decide_eq_false hin]
            simp

end Sys2Proof.Machine
end

