-- ==== Sys2Proof/Laws/Decode.lean ====
section
/-! SUPPORT. The decoder row by row: what a word that matches a row decodes to (30_encoding R64, R65), from the opcode
alone. -/

namespace Sys2Proof

theorem wellFormed_write (w : Nat) : (Instr.write w).WellFormed ↔ w < 64 := by
  simp [Instr.WellFormed, Instr.wellFormed, Config.widthFieldBits]

theorem wellFormed_read (w : Nat) : (Instr.read w).WellFormed ↔ w < 64 := by
  simp [Instr.WellFormed, Instr.wellFormed, Config.widthFieldBits]

/-- The opcode survives a mask that keeps the low four bits. -/
theorem opField_and (x y : Word) (h : opField y = 15#4) : opField (x &&& y) = opField x := by
  have : opField (x &&& y) = opField x &&& opField y := by
    simp only [opField, BitVec.extractLsb'_and]
  rw [this, h]
  exact BitVec.and_allOnes

theorem opField_of_row {x m y : Word} (hm : opField m = 15#4) (h : x &&& m = y) : opField x = opField y := by
  rw [← h, opField_and x m hm]

/-- OPEN's row says the same as the first test of 30_encoding R65. -/
theorem openRow_iff (x : Word) : (x &&& 0xFFFFFFC0#32 = 0#32 ∧ opField x = 0x1#4) ↔ x &&& 0xFFFFFFCF#32 = 0x00000001#32 := by
  have hsplit : x &&& 0xFFFFFFCF#32 = (x &&& 0xFFFFFFC0#32) ||| (x &&& 0xF#32) := by
    rw [← BitVec.and_or_distrib_left]; rfl
  have hlow : x &&& 0xF#32 = (opField x).setWidth 32 := by
    apply BitVec.eq_of_getLsbD_eq
    intro i hi
    simp only [opField, BitVec.getLsbD_and, BitVec.getLsbD_setWidth, BitVec.getLsbD_extractLsb', hi, decide_true,
      Bool.true_and, Nat.zero_add]
    by_cases h4 : i < 4
    · interval_cases i <;> simp
    · have : (0xF#32).getLsbD i = false := by interval_cases i <;> rfl
      simp [h4, this]
  constructor
  · rintro ⟨h1, h2⟩
    rw [hsplit, h1, hlow, h2]
    rfl
  · intro h
    have hop : opField x = 1#4 := opField_of_row (by decide) h
    refine ⟨?_, hop⟩
    have : x &&& 0xFFFFFFC0#32 = (x &&& 0xFFFFFFCF#32) &&& 0xFFFFFFC0#32 := by
      rw [BitVec.and_assoc]; rfl
    rw [this, h]
    rfl

theorem decode_open {x : Word} (h : x &&& 0xFFFFFFCF#32 = 0x00000001#32) :
    decode x = .ok (.openSession (dirField x) (engField x)) := by
  rw [decode, if_pos ((openRow_iff x).mpr h)]

theorem not_open_of_op {x : Word} (h : opField x ≠ 1#4) : ¬ (x &&& 0xFFFFFFC0#32 = 0#32 ∧ opField x = 0x1#4) :=
  fun hh => h hh.2

theorem decode_write {x : Word} (h : x &&& 0xFFFFC0FF#32 = 0x00000003#32) : decode x = .ok (.write (widthField x)) := by
  have hop : opField x = 3#4 := opField_of_row (by decide) h
  rw [decode, if_neg (not_open_of_op (by rw [hop]; decide)), if_neg (by rintro rfl; revert hop; decide), if_pos h]

theorem decode_read {x : Word} (h : x &&& 0xFFFFC0FF#32 = 0x00000004#32) : decode x = .ok (.read (widthField x)) := by
  have hop : opField x = 4#4 := opField_of_row (by decide) h
  rw [decode, if_neg (not_open_of_op (by rw [hop]; decide)), if_neg (by rintro rfl; revert hop; decide),
    if_neg (by rw [h]; decide), if_pos h]

/-- All answers of the decoder, by the row the word matches. -/
theorem decode_cases (x : Word) :
    (x &&& 0xFFFFFFCF#32 = 0x00000001#32 ∧ decode x = .ok (.openSession (dirField x) (engField x))) ∨
    (x = 0x00000002#32 ∧ decode x = .ok .closeSession) ∨
    (x &&& 0xFFFFC0FF#32 = 0x00000003#32 ∧ decode x = .ok (.write (widthField x))) ∨
    (x &&& 0xFFFFC0FF#32 = 0x00000004#32 ∧ decode x = .ok (.read (widthField x))) ∨
    (x = 0x00000005#32 ∧ decode x = .ok .flush) ∨
    (x = 0x00000006#32 ∧ decode x = .ok .extend) ∨
    (¬ x &&& 0xFFFFFFCF#32 = 0x00000001#32 ∧ ¬ x = 0x00000002#32 ∧ ¬ x &&& 0xFFFFC0FF#32 = 0x00000003#32 ∧
      ¬ x &&& 0xFFFFC0FF#32 = 0x00000004#32 ∧ ¬ x = 0x00000005#32 ∧ ¬ x = 0x00000006#32 ∧
      decode x = .error (illegalReason x)) := by
  by_cases h1 : x &&& 0xFFFFFFCF#32 = 0x00000001#32
  · exact .inl ⟨h1, decode_open h1⟩
  by_cases h2 : x = 0x00000002#32
  · exact .inr (.inl ⟨h2, by rw [h2]; rfl⟩)
  by_cases h3 : x &&& 0xFFFFC0FF#32 = 0x00000003#32
  · exact .inr (.inr (.inl ⟨h3, decode_write h3⟩))
  by_cases h4 : x &&& 0xFFFFC0FF#32 = 0x00000004#32
  · exact .inr (.inr (.inr (.inl ⟨h4, decode_read h4⟩)))
  by_cases h5 : x = 0x00000005#32
  · exact .inr (.inr (.inr (.inr (.inl ⟨h5, by rw [h5]; rfl⟩))))
  by_cases h6 : x = 0x00000006#32
  · exact .inr (.inr (.inr (.inr (.inr (.inl ⟨h6, by rw [h6]; rfl⟩)))))
  refine .inr (.inr (.inr (.inr (.inr (.inr ⟨h1, h2, h3, h4, h5, h6, ?_⟩)))))
  rw [decode, if_neg (mt (openRow_iff x).mp h1), if_neg h2, if_neg h3, if_neg h4, if_neg h5, if_neg h6]

theorem widthField_lt (x : Word) : widthField x < 2 ^ Config.widthFieldBits := (x.extractLsb' 8 6).isLt

/-- The width field as arithmetic on the word (30_encoding R62). -/
theorem widthField_eq (x : Word) : widthField x = x.toNat / 2 ^ 8 % 2 ^ 6 := by
  simp [widthField, BitVec.extractLsb'_toNat, Nat.shiftRight_eq_div_pow]

/-- A word of the WRITE or READ row is its fixed bits and its width. -/
theorem word_of_row {x y : Word} (h : x &&& 0xFFFFC0FF#32 = y) : x = y ||| widthBits (widthField x) := by
  have hw : widthBits (widthField x) = x &&& 0x3F00#32 := by
    apply BitVec.eq_of_getLsbD_eq
    intro i hi
    simp only [widthBits, widthField, BitVec.getLsbD_shiftLeft, BitVec.getLsbD_ofNat, BitVec.getLsbD_and,
      BitVec.extractLsb'_toNat, Nat.testBit_mod_two_pow, Nat.testBit_shiftRight]
    interval_cases i <;> simp [BitVec.getLsbD, Nat.testBit]
  rw [hw, ← h, ← BitVec.and_or_distrib_left]
  exact (BitVec.and_allOnes).symm

/-- A word of OPEN's row is its opcode and its two fields. -/
theorem word_of_openRow {x : Word} (h : x &&& 0xFFFFFFCF#32 = 0x00000001#32) :
    x = 0x00000001#32 ||| (dirBit (dirField x) <<< 4) ||| (engBit (engField x) <<< 5) := by
  have h1 : dirBit (dirField x) <<< 4 = x &&& 0x10#32 := by
    apply BitVec.eq_of_getLsbD_eq
    intro i hi
    unfold dirField
    cases hb : x.getLsbD 4 <;> interval_cases i <;> simp [dirBit, -BitVec.getLsbD_eq_getElem, hb]
  have h2 : engBit (engField x) <<< 5 = x &&& 0x20#32 := by
    apply BitVec.eq_of_getLsbD_eq
    intro i hi
    unfold engField
    cases hb : x.getLsbD 5 <;> interval_cases i <;> simp [engBit, -BitVec.getLsbD_eq_getElem, hb]
  rw [h1, h2, ← h, ← BitVec.and_or_distrib_left, ← BitVec.and_or_distrib_left]
  exact (BitVec.and_allOnes).symm

end Sys2Proof
end

