-- ==== Sys2Proof/Laws/State.lean ====
section
/-! SUPPORT. What each named update of the state does to each field, so that no proof unfolds a record update. -/

namespace Sys2Proof.Machine

/-! ### `ok`'s STATUS update -/

@[simp] theorem setStatusOk_cfg (s : State) : (setStatusOk s).cfg = s.cfg := rfl
@[simp] theorem setStatusOk_active (s : State) : (setStatusOk s).active = s.active := rfl
@[simp] theorem setStatusOk_dir (s : State) : (setStatusOk s).dir = s.dir := rfl
@[simp] theorem setStatusOk_eng (s : State) : (setStatusOk s).eng = s.eng := rfl
@[simp] theorem setStatusOk_data (s : State) : (setStatusOk s).data = s.data := rfl
@[simp] theorem setStatusOk_len (s : State) : (setStatusOk s).len = s.len := rfl
@[simp] theorem setStatusOk_bidx (s : State) : (setStatusOk s).bidx = s.bidx := rfl
@[simp] theorem setStatusOk_boff (s : State) : (setStatusOk s).boff = s.boff := rfl
@[simp] theorem setStatusOk_acc (s : State) : (setStatusOk s).acc = s.acc := rfl
@[simp] theorem setStatusOk_acnt (s : State) : (setStatusOk s).acnt = s.acnt := rfl
@[simp] theorem setStatusOk_wptr (s : State) : (setStatusOk s).wptr = s.wptr := rfl
@[simp] theorem setStatusOk_result (s : State) : (setStatusOk s).result = s.result := rfl
@[simp] theorem setStatusOk_code (s : State) : (setStatusOk s).code = .ok := rfl
@[simp] theorem setStatusOk_ewidth (s : State) : (setStatusOk s).ewidth = 0#6 := rfl
@[simp] theorem setStatusOk_mem (s : State) : (setStatusOk s).mem = s.mem := rfl
@[simp] theorem setStatusOk_pending (s : State) : (setStatusOk s).pending = s.pending := rfl
@[simp] theorem setStatusOk_replies (s : State) : (setStatusOk s).replies = s.replies := rfl

/-! ### `raise`'s STATUS update -/

@[simp] theorem setStatusError_cfg (e : StatusCode) (n : Nat) (s : State) : (setStatusError e n s).cfg = s.cfg := rfl
@[simp] theorem setStatusError_active (e : StatusCode) (n : Nat) (s : State) :
    (setStatusError e n s).active = s.active := rfl
@[simp] theorem setStatusError_dir (e : StatusCode) (n : Nat) (s : State) : (setStatusError e n s).dir = s.dir := rfl
@[simp] theorem setStatusError_eng (e : StatusCode) (n : Nat) (s : State) : (setStatusError e n s).eng = s.eng := rfl
@[simp] theorem setStatusError_data (e : StatusCode) (n : Nat) (s : State) :
    (setStatusError e n s).data = s.data := rfl
@[simp] theorem setStatusError_len (e : StatusCode) (n : Nat) (s : State) : (setStatusError e n s).len = s.len := rfl
@[simp] theorem setStatusError_bidx (e : StatusCode) (n : Nat) (s : State) :
    (setStatusError e n s).bidx = s.bidx := rfl
@[simp] theorem setStatusError_boff (e : StatusCode) (n : Nat) (s : State) :
    (setStatusError e n s).boff = s.boff := rfl
@[simp] theorem setStatusError_acc (e : StatusCode) (n : Nat) (s : State) : (setStatusError e n s).acc = s.acc := rfl
@[simp] theorem setStatusError_acnt (e : StatusCode) (n : Nat) (s : State) :
    (setStatusError e n s).acnt = s.acnt := rfl
@[simp] theorem setStatusError_wptr (e : StatusCode) (n : Nat) (s : State) :
    (setStatusError e n s).wptr = s.wptr := rfl
@[simp] theorem setStatusError_result (e : StatusCode) (n : Nat) (s : State) :
    (setStatusError e n s).result = s.result := rfl
@[simp] theorem setStatusError_code (e : StatusCode) (n : Nat) (s : State) : (setStatusError e n s).code = e := rfl
@[simp] theorem setStatusError_ewidth (e : StatusCode) (n : Nat) (s : State) :
    (setStatusError e n s).ewidth = BitVec.ofNat 6 n := rfl
@[simp] theorem setStatusError_mem (e : StatusCode) (n : Nat) (s : State) : (setStatusError e n s).mem = s.mem := rfl
@[simp] theorem setStatusError_pending (e : StatusCode) (n : Nat) (s : State) :
    (setStatusError e n s).pending = s.pending := rfl
@[simp] theorem setStatusError_replies (e : StatusCode) (n : Nat) (s : State) :
    (setStatusError e n s).replies = s.replies := rfl

/-! ### the byte-cursor counter's update -/

@[simp] theorem setCursor_cfg (c : Cursor) (s : State) : (setCursor c s).cfg = s.cfg := rfl
@[simp] theorem setCursor_active (c : Cursor) (s : State) : (setCursor c s).active = s.active := rfl
@[simp] theorem setCursor_dir (c : Cursor) (s : State) : (setCursor c s).dir = s.dir := rfl
@[simp] theorem setCursor_eng (c : Cursor) (s : State) : (setCursor c s).eng = s.eng := rfl
@[simp] theorem setCursor_data (c : Cursor) (s : State) : (setCursor c s).data = s.data := rfl
@[simp] theorem setCursor_len (c : Cursor) (s : State) : (setCursor c s).len = s.len := rfl
@[simp] theorem setCursor_bidx (c : Cursor) (s : State) : (setCursor c s).bidx = BitVec.ofNat 29 c.idx := rfl
@[simp] theorem setCursor_boff (c : Cursor) (s : State) : (setCursor c s).boff = BitVec.ofNat 3 c.off := rfl
@[simp] theorem setCursor_acc (c : Cursor) (s : State) : (setCursor c s).acc = s.acc := rfl
@[simp] theorem setCursor_acnt (c : Cursor) (s : State) : (setCursor c s).acnt = s.acnt := rfl
@[simp] theorem setCursor_wptr (c : Cursor) (s : State) : (setCursor c s).wptr = s.wptr := rfl
@[simp] theorem setCursor_result (c : Cursor) (s : State) : (setCursor c s).result = s.result := rfl
@[simp] theorem setCursor_code (c : Cursor) (s : State) : (setCursor c s).code = s.code := rfl
@[simp] theorem setCursor_ewidth (c : Cursor) (s : State) : (setCursor c s).ewidth = s.ewidth := rfl
@[simp] theorem setCursor_mem (c : Cursor) (s : State) : (setCursor c s).mem = s.mem := rfl
@[simp] theorem setCursor_pending (c : Cursor) (s : State) : (setCursor c s).pending = s.pending := rfl
@[simp] theorem setCursor_replies (c : Cursor) (s : State) : (setCursor c s).replies = s.replies := rfl

/-! ### the byte-cursor WRITE's update -/

@[simp] theorem afterPack_cfg (w : Nat) (s : State) : (afterPack w s).cfg = s.cfg := rfl
@[simp] theorem afterPack_active (w : Nat) (s : State) : (afterPack w s).active = s.active := rfl
@[simp] theorem afterPack_dir (w : Nat) (s : State) : (afterPack w s).dir = s.dir := rfl
@[simp] theorem afterPack_eng (w : Nat) (s : State) : (afterPack w s).eng = s.eng := rfl
@[simp] theorem afterPack_data (w : Nat) (s : State) : (afterPack w s).data = s.data := rfl
@[simp] theorem afterPack_len (w : Nat) (s : State) : (afterPack w s).len = s.len := rfl
@[simp] theorem afterPack_bidx (w : Nat) (s : State) :
    (afterPack w s).bidx = BitVec.ofNat 29 (packLoop w w (valueOperand w s) (cursor s) s.mem).2.idx := rfl
@[simp] theorem afterPack_boff (w : Nat) (s : State) :
    (afterPack w s).boff = BitVec.ofNat 3 (packLoop w w (valueOperand w s) (cursor s) s.mem).2.off := rfl
@[simp] theorem afterPack_acc (w : Nat) (s : State) : (afterPack w s).acc = s.acc := rfl
@[simp] theorem afterPack_acnt (w : Nat) (s : State) : (afterPack w s).acnt = s.acnt := rfl
@[simp] theorem afterPack_wptr (w : Nat) (s : State) : (afterPack w s).wptr = s.wptr := rfl
@[simp] theorem afterPack_result (w : Nat) (s : State) : (afterPack w s).result = s.result := rfl
@[simp] theorem afterPack_code (w : Nat) (s : State) : (afterPack w s).code = s.code := rfl
@[simp] theorem afterPack_ewidth (w : Nat) (s : State) : (afterPack w s).ewidth = s.ewidth := rfl
@[simp] theorem afterPack_mem (w : Nat) (s : State) :
    (afterPack w s).mem = (packLoop w w (valueOperand w s) (cursor s) s.mem).1 := rfl
@[simp] theorem afterPack_pending (w : Nat) (s : State) : (afterPack w s).pending = s.pending := rfl
@[simp] theorem afterPack_replies (w : Nat) (s : State) : (afterPack w s).replies = s.replies := rfl

/-! ### the byte-cursor READ's update -/

@[simp] theorem afterUnpack_cfg (w : Nat) (s : State) : (afterUnpack w s).cfg = s.cfg := rfl
@[simp] theorem afterUnpack_active (w : Nat) (s : State) : (afterUnpack w s).active = s.active := rfl
@[simp] theorem afterUnpack_dir (w : Nat) (s : State) : (afterUnpack w s).dir = s.dir := rfl
@[simp] theorem afterUnpack_eng (w : Nat) (s : State) : (afterUnpack w s).eng = s.eng := rfl
@[simp] theorem afterUnpack_data (w : Nat) (s : State) : (afterUnpack w s).data = s.data := rfl
@[simp] theorem afterUnpack_len (w : Nat) (s : State) : (afterUnpack w s).len = s.len := rfl
@[simp] theorem afterUnpack_bidx (w : Nat) (s : State) :
    (afterUnpack w s).bidx = BitVec.ofNat 29 (unpackLoop s.mem w w 0 0 (cursor s)).2.idx := rfl
@[simp] theorem afterUnpack_boff (w : Nat) (s : State) :
    (afterUnpack w s).boff = BitVec.ofNat 3 (unpackLoop s.mem w w 0 0 (cursor s)).2.off := rfl
@[simp] theorem afterUnpack_acc (w : Nat) (s : State) : (afterUnpack w s).acc = s.acc := rfl
@[simp] theorem afterUnpack_acnt (w : Nat) (s : State) : (afterUnpack w s).acnt = s.acnt := rfl
@[simp] theorem afterUnpack_wptr (w : Nat) (s : State) : (afterUnpack w s).wptr = s.wptr := rfl
@[simp] theorem afterUnpack_result (w : Nat) (s : State) :
    (afterUnpack w s).result = BitVec.ofNat 32 (unpackLoop s.mem w w 0 0 (cursor s)).1 := rfl
@[simp] theorem afterUnpack_code (w : Nat) (s : State) : (afterUnpack w s).code = s.code := rfl
@[simp] theorem afterUnpack_ewidth (w : Nat) (s : State) : (afterUnpack w s).ewidth = s.ewidth := rfl
@[simp] theorem afterUnpack_mem (w : Nat) (s : State) : (afterUnpack w s).mem = s.mem := rfl
@[simp] theorem afterUnpack_pending (w : Nat) (s : State) : (afterUnpack w s).pending = s.pending := rfl
@[simp] theorem afterUnpack_replies (w : Nat) (s : State) : (afterUnpack w s).replies = s.replies := rfl

/-! ### the update of a WRITE that leaves the pending word unfilled -/

@[simp] theorem afterPending_cfg (w v : Nat) (s : State) : (afterPending w v s).cfg = s.cfg := rfl
@[simp] theorem afterPending_active (w v : Nat) (s : State) : (afterPending w v s).active = s.active := rfl
@[simp] theorem afterPending_dir (w v : Nat) (s : State) : (afterPending w v s).dir = s.dir := rfl
@[simp] theorem afterPending_eng (w v : Nat) (s : State) : (afterPending w v s).eng = s.eng := rfl
@[simp] theorem afterPending_data (w v : Nat) (s : State) : (afterPending w v s).data = s.data := rfl
@[simp] theorem afterPending_len (w v : Nat) (s : State) : (afterPending w v s).len = s.len := rfl
@[simp] theorem afterPending_bidx (w v : Nat) (s : State) : (afterPending w v s).bidx = s.bidx := rfl
@[simp] theorem afterPending_boff (w v : Nat) (s : State) : (afterPending w v s).boff = s.boff := rfl
@[simp] theorem afterPending_acc (w v : Nat) (s : State) :
    (afterPending w v s).acc = BitVec.ofNat 32 (s.acc.toNat ||| (v <<< (s.acnt.toNat - w))) := rfl
@[simp] theorem afterPending_acnt (w v : Nat) (s : State) :
    (afterPending w v s).acnt = BitVec.ofNat 6 (s.acnt.toNat - w) := rfl
@[simp] theorem afterPending_wptr (w v : Nat) (s : State) : (afterPending w v s).wptr = s.wptr := rfl
@[simp] theorem afterPending_result (w v : Nat) (s : State) : (afterPending w v s).result = s.result := rfl
@[simp] theorem afterPending_code (w v : Nat) (s : State) : (afterPending w v s).code = s.code := rfl
@[simp] theorem afterPending_ewidth (w v : Nat) (s : State) : (afterPending w v s).ewidth = s.ewidth := rfl
@[simp] theorem afterPending_mem (w v : Nat) (s : State) : (afterPending w v s).mem = s.mem := rfl
@[simp] theorem afterPending_pending (w v : Nat) (s : State) : (afterPending w v s).pending = s.pending := rfl
@[simp] theorem afterPending_replies (w v : Nat) (s : State) : (afterPending w v s).replies = s.replies := rfl

/-! ### the update of a word store -/

@[simp] theorem afterStore_cfg (word acc free : Nat) (s : State) : (afterStore word acc free s).cfg = s.cfg := rfl
@[simp] theorem afterStore_active (word acc free : Nat) (s : State) :
    (afterStore word acc free s).active = s.active := rfl
@[simp] theorem afterStore_dir (word acc free : Nat) (s : State) : (afterStore word acc free s).dir = s.dir := rfl
@[simp] theorem afterStore_eng (word acc free : Nat) (s : State) : (afterStore word acc free s).eng = s.eng := rfl
@[simp] theorem afterStore_data (word acc free : Nat) (s : State) : (afterStore word acc free s).data = s.data := rfl
@[simp] theorem afterStore_len (word acc free : Nat) (s : State) : (afterStore word acc free s).len = s.len := rfl
@[simp] theorem afterStore_bidx (word acc free : Nat) (s : State) : (afterStore word acc free s).bidx = s.bidx := rfl
@[simp] theorem afterStore_boff (word acc free : Nat) (s : State) : (afterStore word acc free s).boff = s.boff := rfl
@[simp] theorem afterStore_acc (word acc free : Nat) (s : State) :
    (afterStore word acc free s).acc = BitVec.ofNat 32 acc := rfl
@[simp] theorem afterStore_acnt (word acc free : Nat) (s : State) :
    (afterStore word acc free s).acnt = BitVec.ofNat 6 free := rfl
@[simp] theorem afterStore_wptr (word acc free : Nat) (s : State) :
    (afterStore word acc free s).wptr = BitVec.ofNat 32 (nextWordAddr s) := rfl
@[simp] theorem afterStore_result (word acc free : Nat) (s : State) :
    (afterStore word acc free s).result = s.result := rfl
@[simp] theorem afterStore_code (word acc free : Nat) (s : State) : (afterStore word acc free s).code = s.code := rfl
@[simp] theorem afterStore_ewidth (word acc free : Nat) (s : State) :
    (afterStore word acc free s).ewidth = s.ewidth := rfl
@[simp] theorem afterStore_mem (word acc free : Nat) (s : State) :
    (afterStore word acc free s).mem = Memory.writeWord s.mem s.wptr.toNat (BitVec.ofNat 32 word) := rfl
@[simp] theorem afterStore_pending (word acc free : Nat) (s : State) :
    (afterStore word acc free s).pending = s.pending := rfl
@[simp] theorem afterStore_replies (word acc free : Nat) (s : State) :
    (afterStore word acc free s).replies = s.replies := rfl

/-! ### the update of a READ that loads no word -/

@[simp] theorem afterUnread_cfg (w : Nat) (s : State) : (afterUnread w s).cfg = s.cfg := rfl
@[simp] theorem afterUnread_active (w : Nat) (s : State) : (afterUnread w s).active = s.active := rfl
@[simp] theorem afterUnread_dir (w : Nat) (s : State) : (afterUnread w s).dir = s.dir := rfl
@[simp] theorem afterUnread_eng (w : Nat) (s : State) : (afterUnread w s).eng = s.eng := rfl
@[simp] theorem afterUnread_data (w : Nat) (s : State) : (afterUnread w s).data = s.data := rfl
@[simp] theorem afterUnread_len (w : Nat) (s : State) : (afterUnread w s).len = s.len := rfl
@[simp] theorem afterUnread_bidx (w : Nat) (s : State) : (afterUnread w s).bidx = s.bidx := rfl
@[simp] theorem afterUnread_boff (w : Nat) (s : State) : (afterUnread w s).boff = s.boff := rfl
@[simp] theorem afterUnread_acc (w : Nat) (s : State) : (afterUnread w s).acc = s.acc := rfl
@[simp] theorem afterUnread_acnt (w : Nat) (s : State) :
    (afterUnread w s).acnt = BitVec.ofNat 6 (s.acnt.toNat - w) := rfl
@[simp] theorem afterUnread_wptr (w : Nat) (s : State) : (afterUnread w s).wptr = s.wptr := rfl
@[simp] theorem afterUnread_result (w : Nat) (s : State) :
    (afterUnread w s).result = BitVec.ofNat 32 ((s.acc.toNat >>> (s.acnt.toNat - w)) &&& mask w) := rfl
@[simp] theorem afterUnread_code (w : Nat) (s : State) : (afterUnread w s).code = s.code := rfl
@[simp] theorem afterUnread_ewidth (w : Nat) (s : State) : (afterUnread w s).ewidth = s.ewidth := rfl
@[simp] theorem afterUnread_mem (w : Nat) (s : State) : (afterUnread w s).mem = s.mem := rfl
@[simp] theorem afterUnread_pending (w : Nat) (s : State) : (afterUnread w s).pending = s.pending := rfl
@[simp] theorem afterUnread_replies (w : Nat) (s : State) : (afterUnread w s).replies = s.replies := rfl

/-! ### the update of a READ that loads a word -/

@[simp] theorem afterLoad_cfg (w : Nat) (s : State) : (afterLoad w s).cfg = s.cfg := rfl
@[simp] theorem afterLoad_active (w : Nat) (s : State) : (afterLoad w s).active = s.active := rfl
@[simp] theorem afterLoad_dir (w : Nat) (s : State) : (afterLoad w s).dir = s.dir := rfl
@[simp] theorem afterLoad_eng (w : Nat) (s : State) : (afterLoad w s).eng = s.eng := rfl
@[simp] theorem afterLoad_data (w : Nat) (s : State) : (afterLoad w s).data = s.data := rfl
@[simp] theorem afterLoad_len (w : Nat) (s : State) : (afterLoad w s).len = s.len := rfl
@[simp] theorem afterLoad_bidx (w : Nat) (s : State) : (afterLoad w s).bidx = s.bidx := rfl
@[simp] theorem afterLoad_boff (w : Nat) (s : State) : (afterLoad w s).boff = s.boff := rfl
@[simp] theorem afterLoad_acc (w : Nat) (s : State) :
    (afterLoad w s).acc = BitVec.ofNat 32 (Memory.readWord s.mem s.wptr.toNat) := rfl
@[simp] theorem afterLoad_acnt (w : Nat) (s : State) :
    (afterLoad w s).acnt = BitVec.ofNat 6 (32 - (w - s.acnt.toNat)) := rfl
@[simp] theorem afterLoad_wptr (w : Nat) (s : State) : (afterLoad w s).wptr = BitVec.ofNat 32 (nextWordAddr s) := rfl
@[simp] theorem afterLoad_result (w : Nat) (s : State) :
    (afterLoad w s).result = BitVec.ofNat 32 (((s.acc.toNat &&& mask s.acnt.toNat) <<< (w - s.acnt.toNat)) |||
      (Memory.readWord s.mem s.wptr.toNat >>> (32 - (w - s.acnt.toNat)))) := rfl
@[simp] theorem afterLoad_code (w : Nat) (s : State) : (afterLoad w s).code = s.code := rfl
@[simp] theorem afterLoad_ewidth (w : Nat) (s : State) : (afterLoad w s).ewidth = s.ewidth := rfl
@[simp] theorem afterLoad_mem (w : Nat) (s : State) : (afterLoad w s).mem = s.mem := rfl
@[simp] theorem afterLoad_pending (w : Nat) (s : State) : (afterLoad w s).pending = s.pending := rfl
@[simp] theorem afterLoad_replies (w : Nat) (s : State) : (afterLoad w s).replies = s.replies := rfl

/-! ### OPEN's update -/

@[simp] theorem startSession_cfg (d : Dir) (e : Engine) (s : State) : (startSession d e s).cfg = s.cfg := rfl
@[simp] theorem startSession_active (d : Dir) (e : Engine) (s : State) : (startSession d e s).active = true := rfl
@[simp] theorem startSession_dir (d : Dir) (e : Engine) (s : State) : (startSession d e s).dir = d := rfl
@[simp] theorem startSession_eng (d : Dir) (e : Engine) (s : State) : (startSession d e s).eng = e := rfl
@[simp] theorem startSession_data (d : Dir) (e : Engine) (s : State) : (startSession d e s).data = s.data := rfl
@[simp] theorem startSession_len (d : Dir) (e : Engine) (s : State) :
    (startSession d e s).len = BitVec.ofNat 32 (lengthOperand s) := rfl
@[simp] theorem startSession_bidx (d : Dir) (e : Engine) (s : State) : (startSession d e s).bidx = 0#29 := rfl
@[simp] theorem startSession_boff (d : Dir) (e : Engine) (s : State) : (startSession d e s).boff = 0#3 := rfl
@[simp] theorem startSession_acc (d : Dir) (e : Engine) (s : State) : (startSession d e s).acc = 0#32 := rfl
@[simp] theorem startSession_acnt (d : Dir) (e : Engine) (s : State) :
    (startSession d e s).acnt = initialAcnt d e := rfl
@[simp] theorem startSession_wptr (d : Dir) (e : Engine) (s : State) : (startSession d e s).wptr = 0#32 := rfl
@[simp] theorem startSession_result (d : Dir) (e : Engine) (s : State) :
    (startSession d e s).result = s.result := rfl
@[simp] theorem startSession_code (d : Dir) (e : Engine) (s : State) : (startSession d e s).code = s.code := rfl
@[simp] theorem startSession_ewidth (d : Dir) (e : Engine) (s : State) :
    (startSession d e s).ewidth = s.ewidth := rfl
@[simp] theorem startSession_mem (d : Dir) (e : Engine) (s : State) : (startSession d e s).mem = s.mem := rfl
@[simp] theorem startSession_pending (d : Dir) (e : Engine) (s : State) :
    (startSession d e s).pending = s.pending := rfl
@[simp] theorem startSession_replies (d : Dir) (e : Engine) (s : State) :
    (startSession d e s).replies = s.replies := rfl

/-! ### the reply to a host read -/

@[simp] theorem reply_cfg (r : Reply) (s : State) : (reply r s).cfg = s.cfg := rfl
@[simp] theorem reply_active (r : Reply) (s : State) : (reply r s).active = s.active := rfl
@[simp] theorem reply_dir (r : Reply) (s : State) : (reply r s).dir = s.dir := rfl
@[simp] theorem reply_eng (r : Reply) (s : State) : (reply r s).eng = s.eng := rfl
@[simp] theorem reply_data (r : Reply) (s : State) : (reply r s).data = s.data := rfl
@[simp] theorem reply_len (r : Reply) (s : State) : (reply r s).len = s.len := rfl
@[simp] theorem reply_bidx (r : Reply) (s : State) : (reply r s).bidx = s.bidx := rfl
@[simp] theorem reply_boff (r : Reply) (s : State) : (reply r s).boff = s.boff := rfl
@[simp] theorem reply_acc (r : Reply) (s : State) : (reply r s).acc = s.acc := rfl
@[simp] theorem reply_acnt (r : Reply) (s : State) : (reply r s).acnt = s.acnt := rfl
@[simp] theorem reply_wptr (r : Reply) (s : State) : (reply r s).wptr = s.wptr := rfl
@[simp] theorem reply_result (r : Reply) (s : State) : (reply r s).result = s.result := rfl
@[simp] theorem reply_code (r : Reply) (s : State) : (reply r s).code = s.code := rfl
@[simp] theorem reply_ewidth (r : Reply) (s : State) : (reply r s).ewidth = s.ewidth := rfl
@[simp] theorem reply_mem (r : Reply) (s : State) : (reply r s).mem = s.mem := rfl
@[simp] theorem reply_pending (r : Reply) (s : State) : (reply r s).pending = s.pending := rfl
@[simp] theorem reply_replies (r : Reply) (s : State) : (reply r s).replies = s.replies ++ [r] := rfl

/-! ### the reset input -/

@[simp] theorem resetBlock_cfg (s : State) : (resetBlock s).cfg = s.cfg := rfl
@[simp] theorem resetBlock_active (s : State) : (resetBlock s).active = false := rfl
@[simp] theorem resetBlock_dir (s : State) : (resetBlock s).dir = .write := rfl
@[simp] theorem resetBlock_eng (s : State) : (resetBlock s).eng = .byte := rfl
@[simp] theorem resetBlock_data (s : State) : (resetBlock s).data = 0#32 := rfl
@[simp] theorem resetBlock_len (s : State) : (resetBlock s).len = 0#32 := rfl
@[simp] theorem resetBlock_bidx (s : State) : (resetBlock s).bidx = 0#29 := rfl
@[simp] theorem resetBlock_boff (s : State) : (resetBlock s).boff = 0#3 := rfl
@[simp] theorem resetBlock_acc (s : State) : (resetBlock s).acc = 0#32 := rfl
@[simp] theorem resetBlock_acnt (s : State) : (resetBlock s).acnt = 0#6 := rfl
@[simp] theorem resetBlock_wptr (s : State) : (resetBlock s).wptr = 0#32 := rfl
@[simp] theorem resetBlock_result (s : State) : (resetBlock s).result = 0#32 := rfl
@[simp] theorem resetBlock_code (s : State) : (resetBlock s).code = .ok := rfl
@[simp] theorem resetBlock_ewidth (s : State) : (resetBlock s).ewidth = 0#6 := rfl
@[simp] theorem resetBlock_mem (s : State) : (resetBlock s).mem = s.mem := rfl
@[simp] theorem resetBlock_pending (s : State) : (resetBlock s).pending = s.pending := rfl
@[simp] theorem resetBlock_replies (s : State) : (resetBlock s).replies = s.replies := rfl

end Sys2Proof.Machine
end

