-- ==== Sys2Proof/Laws/Ops.lean ====
section
/-! SUPPORT. What each shared operation can answer, said once: how a command ends, which session is open, the cursor and
the fit check. -/

namespace Sys2Proof.Machine

/-! ### The named constants (00_scope R6) -/

@[simp] theorem maxWidth_eq : Config.maxWidth = 32 := rfl
@[simp] theorem byteBits_eq : Config.byteBits = 8 := rfl
@[simp] theorem wordBits_eq : Config.wordBits = 32 := rfl
@[simp] theorem wordBytes_eq : Config.wordBytes = 4 := rfl

/-! ### How a command ends -/

theorem complete_eq (s : State) : complete s = .next (setStatusOk s) := rfl

theorem raise_eq (e : StatusCode) (n : Nat) (s : State) : raise e n s = .next (setStatusError e n s) := rfl

/-- An engine access within the memory completes (20_memory R40). -/
theorem completeWithin_of_le {hi : Nat} {s : State} (h : hi ≤ s.cfg.bufMax) :
    completeWithin hi s = .next (setStatusOk s) := by rw [completeWithin, if_pos h, complete_eq]

/-- All that a completion within the memory can answer as a next state. -/
theorem completeWithin_next {hi : Nat} {s t : State} (h : completeWithin hi s = .next t) :
    hi ≤ s.cfg.bufMax ∧ t = setStatusOk s := by
  unfold completeWithin at h
  split at h
  · next hle => cases h; exact ⟨hle, rfl⟩
  · cases h

theorem okNext_eq_some {o : Host.Outcome State Fault Refusal} {t : State} :
    okNext o = some t ↔ o = .next t ∧ t.code = .ok := by
  cases o with
  | next s =>
    simp only [okNext, Option.ite_none_right_eq_some, Option.some.injEq, Host.Outcome.next.injEq]
    constructor
    · rintro ⟨h, rfl⟩; exact ⟨rfl, h⟩
    · rintro ⟨rfl, h⟩; exact ⟨h, rfl⟩
  | fault r => simp [okNext]
  | refused r => simp [okNext]

/-! ### Parameters, bits, cursor -/

theorem bufMax_pos (c : Config) : 1 ≤ c.bufMax := by
  have := c.bufMaxShort.isLt
  unfold Config.bufMax; omega

theorem bufMax_le (c : Config) : c.bufMax ≤ 268435456 := by unfold Config.bufMax; omega

theorem capacity_eq (s : State) : capacity s = s.len.toNat * 8 := rfl

theorem bitPos_byte {s : State} (h : s.eng = .byte) : bitPos s = (cursor s).pos := by
  simp [bitPos, h, cursor, Cursor.pos]

theorem bitPos_wordWrite {s : State} (he : s.eng = .word) (hd : s.dir = .write) :
    bitPos s = s.wptr.toNat * 8 + (32 - s.acnt.toNat) := by simp [bitPos, he, hd]

theorem bitPos_wordRead {s : State} (he : s.eng = .word) (hd : s.dir = .read) :
    bitPos s = s.wptr.toNat * 8 - s.acnt.toNat := by simp [bitPos, he, hd]

/-- The cursor is a function of the engine's registers alone (10_state R19). -/
theorem bitPos_congr {s t : State} (he : t.eng = s.eng) (hd : t.dir = s.dir) (h1 : t.bidx = s.bidx) (h2 : t.boff = s.boff)
    (h3 : t.wptr = s.wptr) (h4 : t.acnt = s.acnt) : bitPos t = bitPos s := by simp [bitPos, he, hd, h1, h2, h3, h4]

@[simp] theorem bitPos_setStatusOk (s : State) : bitPos (setStatusOk s) = bitPos s := rfl

@[simp] theorem bitPos_setStatusError (e : StatusCode) (n : Nat) (s : State) :
    bitPos (setStatusError e n s) = bitPos s := rfl

@[simp] theorem capacity_setStatusOk (s : State) : capacity (setStatusOk s) = capacity s := rfl

@[simp] theorem capacity_setStatusError (e : StatusCode) (n : Nat) (s : State) :
    capacity (setStatusError e n s) = capacity s := rfl

theorem cursor_off_lt (s : State) : (cursor s).off < 8 := s.boff.isLt

theorem valueOperand_eq (w : Nat) (s : State) : valueOperand w s = s.data.toNat % 2 ^ w := and_mask _ _

theorem valueOperand_lt (w : Nat) (s : State) : valueOperand w s < 2 ^ w := by
  rw [valueOperand_eq]; exact Nat.mod_lt _ (Nat.two_pow_pos w)

theorem valueOperand_lt_word (w : Nat) (s : State) : valueOperand w s < 2 ^ 32 := by
  rw [valueOperand_eq]; exact Nat.lt_of_le_of_lt (Nat.mod_le _ _) s.data.isLt

/-- A byte-cursor request that fits touches bytes of the buffer only (20_memory R41). -/
theorem touchedEnd_le {w : Nat} {s : State} (he : s.eng = .byte) (hf : Fits w s) : touchedEnd w s ≤ s.len.toNat := by
  have hp : bitPos s = s.bidx.toNat * 8 + s.boff.toNat := by simp [bitPos, he]
  have := hf.2
  rw [capacity_eq, hp] at this
  unfold touchedEnd
  split <;> omega

/-! ### The session -/

theorem session_some {s : State} {d : Dir} {e : Engine} : session s = some (d, e) ↔ InSession d e s := by
  cases h : s.active <;> simp [session, h]

theorem session_none {s : State} : session s = none ↔ s.active = false := by
  cases h : s.active <;> simp [session, h]

/-- No session, or exactly one of the four kinds. -/
theorem session_cases (s : State) : s.active = false ∨ ∃ d e, InSession d e s := by
  cases h : s.active
  · exact .inl rfl
  · exact .inr ⟨s.dir, s.eng, h, rfl, rfl⟩

end Sys2Proof.Machine
end

