-- ==== Sys2Proof/Laws/Exec.lean ====
section
/-! SUPPORT. What each meaning answers in each session state (30_encoding R66), and all the next states a command can
have: every later proof about commands goes through `exec_cases`. -/

namespace Sys2Proof.Machine

/-! ### The rule a session selects (30_encoding R66) -/

theorem execWrite_byte {w : Nat} {s : State} (h : InSession .write .byte s) : execWrite w s = writeByteCursor w s := by
  simp [execWrite, session_some.mpr h]

theorem execWrite_word {w : Nat} {s : State} (h : InSession .write .word s) :
    execWrite w s = writeWordAccumulator w s := by simp [execWrite, session_some.mpr h]

theorem execRead_byte {w : Nat} {s : State} (h : InSession .read .byte s) : execRead w s = readByteCursor w s := by
  simp [execRead, session_some.mpr h]

theorem execRead_word {w : Nat} {s : State} (h : InSession .read .word s) : execRead w s = readWordAccumulator w s := by
  simp [execRead, session_some.mpr h]

theorem execFlush_word {s : State} (h : InSession .write .word s) : execFlush s = flushPendingWord s := by
  simp [execFlush, session_some.mpr h]

/-- Where 30_encoding R66 gives E_CMD, the command raises it. -/
theorem exec_not_allowed {i : Instr} {s : State} (h : allowed i s = false) :
    exec i s = .next (setStatusError .eCmd 0 s) := by
  cases ha : s.active <;> cases hd : s.dir <;> cases he : s.eng <;> cases i <;>
    simp_all [allowed, exec, execOpenSession, execCloseSession, execWrite, execRead, execFlush, execExtend, session,
      raise_eq]

/-! ### All next states of a command -/

/-- The successful outcomes of a command, one constructor per branch of the rules' pseudocode. -/
inductive Success : Instr → State → State → Prop
  /-- 42_session_control R120. -/
  | openSession (d : Dir) (e : Engine) (s : State) (ha : s.active = false) (hn : ¬ BadLength e (lengthOperand s) s) :
      Success (.openSession d e) s (startSession d e s)
  /-- 42_session_control R124. -/
  | closeSession (s : State) (ha : s.active = true) : Success .closeSession s { s with active := false }
  /-- 42_session_control R126. -/
  | extend (e : Engine) (s : State) (hs : InSession .write e s) (hl : s.len.toNat ≤ lengthOperand s)
      (hn : ¬ BadLength e (lengthOperand s) s) : Success .extend s { s with len := BitVec.ofNat 32 (lengthOperand s) }
  /-- 40_byte_cursor R80. -/
  | writeByte (w : Nat) (s : State) (hs : InSession .write .byte s) (hf : Fits w s)
      (hm : touchedEnd w s ≤ s.cfg.bufMax) : Success (.write w) s (afterPack w s)
  /-- 40_byte_cursor R84. -/
  | readByte (w : Nat) (s : State) (hs : InSession .read .byte s) (hf : Fits w s)
      (hm : touchedEnd w s ≤ s.cfg.bufMax) : Success (.read w) s (afterUnpack w s)
  /-- 41_word_accumulator R100, branch `w < F`. -/
  | writePending (w : Nat) (s : State) (hs : InSession .write .word s) (hf : Fits w s) (hw : w < s.acnt.toNat) :
      Success (.write w) s (afterPending w (valueOperand w s) s)
  /-- 41_word_accumulator R100, branch `w = F`. -/
  | writeFull (w : Nat) (s : State) (hs : InSession .write .word s) (hf : Fits w s) (hw : w = s.acnt.toNat)
      (hm : nextWordAddr s ≤ s.cfg.bufMax) :
      Success (.write w) s (afterStore (s.acc.toNat ||| valueOperand w s) 0 32 s)
  /-- 41_word_accumulator R100, branch `w > F`. -/
  | writeSplit (w : Nat) (s : State) (hs : InSession .write .word s) (hf : Fits w s) (hw : s.acnt.toNat < w)
      (hm : nextWordAddr s ≤ s.cfg.bufMax) :
      Success (.write w) s (afterStore (s.acc.toNat ||| (valueOperand w s >>> (w - s.acnt.toNat)))
        ((valueOperand w s &&& mask (w - s.acnt.toNat)) <<< (32 - (w - s.acnt.toNat))) (32 - (w - s.acnt.toNat)) s)
  /-- 41_word_accumulator R104, branch `w <= A`. -/
  | readUnread (w : Nat) (s : State) (hs : InSession .read .word s) (hf : Fits w s) (hw : w ≤ s.acnt.toNat) :
      Success (.read w) s (afterUnread w s)
  /-- 41_word_accumulator R104, branch `w > A`. -/
  | readLoad (w : Nat) (s : State) (hs : InSession .read .word s) (hf : Fits w s) (hw : s.acnt.toNat < w)
      (hm : nextWordAddr s ≤ s.cfg.bufMax) : Success (.read w) s (afterLoad w s)
  /-- 41_word_accumulator R106, empty pending word. -/
  | flushEmpty (s : State) (hs : InSession .write .word s) (hw : s.acnt.toNat = 32) : Success .flush s s
  /-- 41_word_accumulator R106. -/
  | flushWord (s : State) (hs : InSession .write .word s) (hw : s.acnt.toNat ≠ 32)
      (hm : nextWordAddr s ≤ s.cfg.bufMax) : Success .flush s (afterStore s.acc.toNat 0 32 s)

/-- The failed outcomes of a command (60_exceptions R142), with the code and the information. -/
inductive Failure : Instr → State → StatusCode → Nat → Prop
  /-- 60_exceptions R144. -/
  | wrongSession (i : Instr) (s : State) (h : allowed i s = false) : Failure i s .eCmd 0
  /-- 60_exceptions R145, OPEN. -/
  | openLength (d : Dir) (e : Engine) (s : State) (ha : s.active = false) (hn : BadLength e (lengthOperand s) s) :
      Failure (.openSession d e) s .eCfg 0
  /-- 60_exceptions R145, EXTEND. -/
  | extendLength (e : Engine) (s : State) (hs : InSession .write e s)
      (hn : lengthOperand s < s.len.toNat ∨ BadLength e (lengthOperand s) s) : Failure .extend s .eCfg 0
  /-- 60_exceptions R143, WRITE. -/
  | writeWidth (w : Nat) (e : Engine) (s : State) (hs : InSession .write e s) (hf : ¬ Fits w s) :
      Failure (.write w) s .eWidth w
  /-- 60_exceptions R143, READ. -/
  | readWidth (w : Nat) (e : Engine) (s : State) (hs : InSession .read e s) (hf : ¬ Fits w s) :
      Failure (.read w) s .eWidth w

theorem allowed_of_success {i : Instr} {s t : State} (h : Success i s t) : allowed i s = true := by
  cases h <;> simp_all [allowed]

/-- A failure's outcome. -/
theorem exec_of_failure {i : Instr} {s : State} {c : StatusCode} {n : Nat} (h : Failure i s c n) :
    exec i s = .next (setStatusError c n s) := by
  cases h with
  | wrongSession i s h => exact exec_not_allowed h
  | openLength d e s ha hn => simp only [exec, execOpenSession, session_none.mpr ha, if_pos hn]; rfl
  | extendLength e s hs hn =>
    simp only [exec, execExtend, session_some.mpr hs]
    rcases hn with h | h
    · rw [if_pos h]; rfl
    · rw [if_pos h]; split <;> rfl
  | writeWidth w e s hs hf =>
    cases e
    · simp only [exec, execWrite_byte hs, writeByteCursor, if_neg hf]; rfl
    · simp only [exec, execWrite_word hs, writeWordAccumulator, if_neg hf]; rfl
  | readWidth w e s hs hf =>
    cases e
    · simp only [exec, execRead_byte hs, readByteCursor, if_neg hf]; rfl
    · simp only [exec, execRead_word hs, readWordAccumulator, if_neg hf]; rfl

/-- A success's outcome. -/
theorem exec_of_success {i : Instr} {s t : State} (h : Success i s t) : exec i s = .next (setStatusOk t) := by
  cases h with
  | openSession d e s ha hn => simp only [exec, execOpenSession, session_none.mpr ha, if_neg hn]; rfl
  | closeSession s ha =>
    have : session s = some (s.dir, s.eng) := by simp [session, ha]
    simp only [exec, execCloseSession, this]; rfl
  | extend e s hs hl hn =>
    simp only [exec, execExtend, session_some.mpr hs, if_neg (Nat.not_lt.mpr hl), if_neg hn]; rfl
  | writeByte w s hs hf hm =>
    simp only [exec, execWrite_byte hs, writeByteCursor, if_pos hf]
    exact completeWithin_of_le hm
  | readByte w s hs hf hm =>
    simp only [exec, execRead_byte hs, readByteCursor, if_pos hf]
    exact completeWithin_of_le hm
  | writePending w s hs hf hw =>
    simp only [exec, execWrite_word hs, writeWordAccumulator, if_pos hf, if_pos hw]; rfl
  | writeFull w s hs hf hw hm =>
    simp only [exec, execWrite_word hs, writeWordAccumulator, if_pos hf, if_neg (Nat.not_lt.mpr (Nat.le_of_eq hw.symm)),
      if_pos hw]
    exact completeWithin_of_le hm
  | writeSplit w s hs hf hw hm =>
    simp only [exec, execWrite_word hs, writeWordAccumulator, if_pos hf, if_neg (Nat.not_lt.mpr (Nat.le_of_lt hw)),
      if_neg (Nat.ne_of_gt hw)]
    exact completeWithin_of_le hm
  | readUnread w s hs hf hw =>
    simp only [exec, execRead_word hs, readWordAccumulator, if_pos hf, if_pos hw]; rfl
  | readLoad w s hs hf hw hm =>
    simp only [exec, execRead_word hs, readWordAccumulator, if_pos hf, if_neg (Nat.not_le.mpr hw)]
    exact completeWithin_of_le hm
  | flushEmpty s hs hw => simp only [exec, execFlush_word hs, flushPendingWord]; exact if_pos hw
  | flushWord s hs hw hm =>
    simp only [exec, execFlush_word hs, flushPendingWord]
    exact (if_neg hw).trans (completeWithin_of_le hm)

/-- Every next state of a command is a success's or a failure's. -/
theorem exec_cases {i : Instr} {s t : State} (h : exec i s = .next t) :
    (∃ u, Success i s u ∧ t = setStatusOk u) ∨ ∃ c n, Failure i s c n ∧ t = setStatusError c n s := by
  cases hal : allowed i s with
  | false =>
    have := (Failure.wrongSession i s hal)
    rw [exec_of_failure this] at h
    cases h
    exact .inr ⟨_, _, this, rfl⟩
  | true =>
    have fail : ∀ {c n}, Failure i s c n →
        (∃ u, Success i s u ∧ t = setStatusOk u) ∨ ∃ c n, Failure i s c n ∧ t = setStatusError c n s := by
      intro c n hf
      rw [exec_of_failure hf] at h
      cases h
      exact .inr ⟨_, _, hf, rfl⟩
    have succ : ∀ {u}, Success i s u →
        (∃ u, Success i s u ∧ t = setStatusOk u) ∨ ∃ c n, Failure i s c n ∧ t = setStatusError c n s := by
      intro u hu
      rw [exec_of_success hu] at h
      cases h
      exact .inl ⟨_, hu, rfl⟩
    cases i with
    | openSession d e =>
      have ha : s.active = false := by simpa [allowed] using hal
      by_cases hn : BadLength e (lengthOperand s) s
      · exact fail (.openLength d e s ha hn)
      · exact succ (.openSession d e s ha hn)
    | closeSession => exact succ (.closeSession s (by simpa [allowed] using hal))
    | extend =>
      have hs : InSession .write s.eng s := by simpa [allowed, InSession] using hal
      by_cases hl : lengthOperand s < s.len.toNat
      · exact fail (.extendLength _ s hs (.inl hl))
      by_cases hn : BadLength s.eng (lengthOperand s) s
      · exact fail (.extendLength _ s hs (.inr hn))
      · exact succ (.extend _ s hs (Nat.not_lt.mp hl) hn)
    | write w =>
      have hs : InSession .write s.eng s := by simpa [allowed, InSession] using hal
      by_cases hf : Fits w s
      · generalize he : s.eng = e at hs
        cases e with
        | byte =>
          simp only [exec, execWrite_byte hs, writeByteCursor, if_pos hf] at h
          exact succ (.writeByte w s hs hf (completeWithin_next h).1)
        | word =>
          simp only [exec, execWrite_word hs, writeWordAccumulator, if_pos hf] at h
          split at h
          · next hw => exact succ (.writePending w s hs hf hw)
          · split at h
            · next hw => exact succ (.writeFull w s hs hf hw (completeWithin_next h).1)
            · exact succ (.writeSplit w s hs hf (by omega) (completeWithin_next h).1)
      · exact fail (.writeWidth w _ s hs hf)
    | read w =>
      have hs : InSession .read s.eng s := by simpa [allowed, InSession] using hal
      by_cases hf : Fits w s
      · generalize he : s.eng = e at hs
        cases e with
        | byte =>
          simp only [exec, execRead_byte hs, readByteCursor, if_pos hf] at h
          exact succ (.readByte w s hs hf (completeWithin_next h).1)
        | word =>
          simp only [exec, execRead_word hs, readWordAccumulator, if_pos hf] at h
          split at h
          · next hw => exact succ (.readUnread w s hs hf hw)
          · exact succ (.readLoad w s hs hf (by omega) (completeWithin_next h).1)
      · exact fail (.readWidth w _ s hs hf)
    | flush =>
      have hs : InSession .write .word s := by simpa [allowed, and_assoc] using hal
      simp only [exec, execFlush_word hs, flushPendingWord] at h
      split at h
      · next hw => exact succ (.flushEmpty s hs hw)
      · next hw => exact succ (.flushWord s hs hw (completeWithin_next h).1)

end Sys2Proof.Machine
end

