-- ==== Sys2Proof/Laws/Flags.lean ====
section
/-! SUPPORT. Laws of the STATUS register: its fields as arithmetic. -/

namespace Sys2Proof.Machine

/-- Fields set side by side add up with their weights. -/
theorem toNat_append_add {n m : Nat} (x : BitVec n) (y : BitVec m) : (x ++ y).toNat = x.toNat * 2 ^ m + y.toNat := by
  rw [BitVec.toNat_append, ← Nat.shiftLeft_add_eq_or_of_lt y.isLt, Nat.shiftLeft_eq]

theorem codeBits_injective {a b : StatusCode} (h : codeBits a = codeBits b) : a = b := by
  cases a <;> cases b <;> first | rfl | exact absurd h (by decide)

end Sys2Proof.Machine
end

