-- ==== Sys2Proof/Laws/WordAccumulator.lean ====
section
/-! SUPPORT. The word-accumulator engine: every store and load lies in the buffer (41_word_accumulator R100, R104, R106),
and what the registers hold as numbers. -/

namespace Sys2Proof.Machine

/-! ### Every word access lies in the buffer -/

/-- A WRITE that fills or overflows the pending word stores inside the buffer (41_word_accumulator R100). -/
theorem store_room {w : Nat} {s : State} (hi : Invariants s) (hs : InSession .write .word s) (hf : Fits w s)
    (hw : s.acnt.toNat ≤ w) : nextWordAddr s ≤ s.len.toNat := by
  have h1 := hf.2
  rw [capacity_eq, bitPos_wordWrite hs.2.2 hs.2.1] at h1
  have h2 := hi.acnt_le
  simp only [nextWordAddr, wordBytes_eq]
  omega

/-- A FLUSH of a word that is not empty stores inside the buffer (41_word_accumulator R106). -/
theorem flush_room {s : State} (hi : Invariants s) (hs : InSession .write .word s) (hw : s.acnt.toNat ≠ 32) :
    nextWordAddr s ≤ s.len.toNat := by
  have h1 := hi.bitPos_le_capacity
  rw [capacity_eq, bitPos_wordWrite hs.2.2 hs.2.1] at h1
  have h2 := hi.acnt_le
  have h3 := hi.wptr_aligned
  have h4 := hi.len_aligned hs.1 hs.2.2
  simp only [nextWordAddr, wordBytes_eq]
  omega

/-- A READ that needs a fresh word loads inside the buffer (41_word_accumulator R104). -/
theorem load_room {w : Nat} {s : State} (hi : Invariants s) (hs : InSession .read .word s) (hf : Fits w s)
    (hw : s.acnt.toNat < w) : nextWordAddr s ≤ s.len.toNat := by
  have h1 := hf.2
  rw [capacity_eq, bitPos_wordRead hs.2.2 hs.2.1] at h1
  have h2 := hi.loaded_before_counted hs.2.2 hs.2.1
  have h3 := hi.wptr_aligned
  have h4 := hi.len_aligned hs.1 hs.2.2
  simp only [nextWordAddr, wordBytes_eq]
  omega

/-! ### Registers as numbers -/

theorem toNat_ofNat32 {n : Nat} (h : n < 2 ^ 32) : (BitVec.ofNat 32 n).toNat = n := by
  rw [BitVec.toNat_ofNat, Nat.mod_eq_of_lt h]

theorem toNat_ofNat6 {n : Nat} (h : n < 64) : (BitVec.ofNat 6 n).toNat = n := by
  rw [BitVec.toNat_ofNat, Nat.mod_eq_of_lt h]

/-- The word pointer after a word access in the buffer. -/
theorem nextWordAddr_toNat {s : State} (hi : Invariants s) (h : nextWordAddr s ≤ s.len.toNat) :
    (BitVec.ofNat 32 (nextWordAddr s)).toNat = s.wptr.toNat + 4 := by
  have := hi.len_le_bufMax
  have := bufMax_le s.cfg
  rw [toNat_ofNat32 (by omega)]
  rfl

theorem nextWordAddr_eq_add (s : State) : BitVec.ofNat 32 (nextWordAddr s) = s.wptr + 4#32 := by
  apply BitVec.eq_of_toNat_eq
  simp [nextWordAddr]

/-! ### Bits of the pending word -/

theorem mod_lt_of_lt {v w : Nat} (h : v < 2 ^ w) (hw : w ≤ 32) : v < 2 ^ 32 :=
  Nat.lt_of_lt_of_le h (Nat.pow_le_pow_right (by decide) hw)

/-- A value in the highest free bits stays inside the word (41_word_accumulator R100, branch `w < F`). -/
theorem pending_lt {a v w f : Nat} (ha : a < 2 ^ 32) (hv : v < 2 ^ w) (hw : w ≤ f) (hf : f ≤ 32) :
    a ||| (v <<< (f - w)) < 2 ^ 32 := by
  refine Nat.or_lt_two_pow ha ?_
  rw [Nat.shiftLeft_eq]
  calc v * 2 ^ (f - w) < 2 ^ w * 2 ^ (f - w) := Nat.mul_lt_mul_of_pos_right hv (Nat.two_pow_pos _)
    _ = 2 ^ f := by rw [← Nat.pow_add]; congr 1; omega
    _ ≤ 2 ^ 32 := Nat.pow_le_pow_right (by decide) hf

/-- The high part of a split value fills the word (41_word_accumulator R100, branch `w > F`). -/
theorem filled_lt {a v w k : Nat} (ha : a < 2 ^ 32) (hv : v < 2 ^ w) (hw : w ≤ 32) : a ||| (v >>> k) < 2 ^ 32 :=
  Nat.or_lt_two_pow ha (Nat.lt_of_le_of_lt (Nat.shiftRight_le v k) (mod_lt_of_lt hv hw))

/-- The low part of a split value starts the new word (41_word_accumulator R100, branch `w > F`). -/
theorem rest_lt {v lo : Nat} (h : lo ≤ 32) : (v &&& mask lo) <<< (32 - lo) < 2 ^ 32 := by
  rw [and_mask, Nat.shiftLeft_eq]
  calc v % 2 ^ lo * 2 ^ (32 - lo) < 2 ^ lo * 2 ^ (32 - lo) :=
        Nat.mul_lt_mul_of_pos_right (Nat.mod_lt _ (Nat.two_pow_pos _)) (Nat.two_pow_pos _)
    _ = 2 ^ 32 := by rw [← Nat.pow_add]; congr 1; omega

/-- The free bits of a pending word are 0, bit by bit (10_state R17). -/
theorem free_bits {s : State} (hi : Invariants s) (hs : InSession .write .word s) {j : Nat}
    (hj : j < s.acnt.toNat) : s.acc.toNat.testBit j = false := by
  have := congrArg (fun n => n.testBit j) (hi.free_bits_zero hs)
  simpa [Nat.testBit_and, testBit_mask, hj] using this

end Sys2Proof.Machine
end

