-- ==== Sys2Proof/Laws/Invariants.lean ====
section
/-! SUPPORT. Every branch of every command keeps the invariants of 10_state R28. -/

namespace Sys2Proof.Machine

/-! ### STATUS updates -/

theorem Invariants.setStatusOk {s : State} (h : Invariants s) : Invariants (setStatusOk s) :=
  { h with ewidth_zero := fun _ => rfl }

theorem Invariants.setStatusError {s : State} {c : StatusCode} {n : Nat} (h : Invariants s) (hn : c ≠ .eWidth → n = 0) :
    Invariants (setStatusError c n s) :=
  { h with ewidth_zero := fun hc => by rw [setStatusError_ewidth, hn hc] }

/-! ### Session control -/

theorem lengthOperand_le {e : Engine} {s : State} (hn : ¬ BadLength e (lengthOperand s) s) :
    lengthOperand s ≤ s.cfg.bufMax ∧ (e = .word → lengthOperand s % 4 = 0) := by
  refine ⟨Nat.not_lt.mp fun h => hn (.inl h), fun he => ?_⟩
  by_contra h
  exact hn (.inr ⟨he, h⟩)

theorem lengthOperand_toNat (s : State) : (BitVec.ofNat 32 (lengthOperand s)).toNat = lengthOperand s :=
  toNat_ofNat32 s.data.isLt

theorem Invariants.startSession {d : Dir} {e : Engine} {s : State} (h : Invariants s) (hn : ¬ BadLength e (lengthOperand s) s) :
    Invariants (startSession d e s) where
  len_le_bufMax := by rw [startSession_len, lengthOperand_toNat]; exact (lengthOperand_le hn).1
  bitPos_le_capacity := by
    have : bitPos (Machine.startSession d e s) = 0 := by cases d <;> cases e <;> rfl
    rw [this]; exact Nat.zero_le _
  boff_zero_at_end := fun _ => rfl
  acnt_le := by cases d <;> cases e <;> simp [initialAcnt]
  acnt_pos := by
    rintro ⟨-, hd, he⟩
    simp only [startSession_dir, startSession_eng] at hd he
    subst hd he
    exact Nat.le_of_ble_eq_true rfl
  free_bits_zero := fun _ => by simp
  wptr_aligned := rfl
  wptr_le_len := fun _ _ => Nat.zero_le _
  len_aligned := fun _ he => by rw [startSession_len, lengthOperand_toNat]; exact (lengthOperand_le hn).2 he
  word_side_idle := fun he => by
    simp only [startSession_eng] at he
    subst he
    cases d <;> exact ⟨rfl, rfl, rfl⟩
  byte_side_idle := fun _ => ⟨rfl, rfl⟩
  loaded_before_counted := by
    intro he hd
    simp only [startSession_dir, startSession_eng] at hd he
    subst hd he
    exact Nat.zero_le _
  acc_is_last_word := by
    rintro ⟨-, hd, he⟩ h0
    simp only [startSession_dir, startSession_eng] at hd he
    subst hd he
    exact absurd rfl h0
  ewidth_zero := h.ewidth_zero
  mem_wf := h.mem_wf
  mem_below := h.mem_below

theorem Invariants.close {s : State} (h : Invariants s) : Invariants { s with active := false } :=
  { h with
    acnt_pos := fun hs => absurd hs.1 Bool.false_ne_true
    free_bits_zero := fun hs => absurd hs.1 Bool.false_ne_true
    wptr_le_len := fun ha => absurd ha Bool.false_ne_true
    len_aligned := fun ha => absurd ha Bool.false_ne_true
    acc_is_last_word := fun hs => absurd hs.1 Bool.false_ne_true }

theorem Invariants.extend {e : Engine} {s : State} (h : Invariants s) (hs : InSession .write e s) (hl : s.len.toNat ≤ lengthOperand s)
    (hn : ¬ BadLength e (lengthOperand s) s) : Invariants { s with len := BitVec.ofNat 32 (lengthOperand s) } :=
  have hlen := lengthOperand_toNat s
  have hcap : bitPos s ≤ lengthOperand s * 8 :=
    Nat.le_trans h.bitPos_le_capacity (by rw [capacity_eq]; exact Nat.mul_le_mul_right 8 hl)
  { h with
    len_le_bufMax := by simp only [hlen]; exact (lengthOperand_le hn).1
    bitPos_le_capacity := by simp only [capacity_eq, hlen]; exact hcap
    boff_zero_at_end := by
      simp only [hlen]
      intro hb
      cases he : s.eng with
      | word => exact (h.byte_side_idle he).2
      | byte =>
        have hp : bitPos s = s.bidx.toNat * 8 + s.boff.toNat := by simp [bitPos, he]
        apply BitVec.eq_of_toNat_eq
        rw [hp] at hcap
        simp only [BitVec.toNat_ofNat, Nat.zero_mod]
        omega
    acnt_pos := fun hs' => h.acnt_pos hs'
    free_bits_zero := fun hs' => h.free_bits_zero hs'
    wptr_le_len := fun ha he => by simp only [hlen]; exact Nat.le_trans (h.wptr_le_len ha he) hl
    len_aligned := fun _ he => by
      simp only [hlen]
      exact (lengthOperand_le hn).2 (hs.2.2.symm.trans he)
    acc_is_last_word := fun hs' => h.acc_is_last_word hs' }

/-! ### The byte-cursor engine -/

/-- The counter a byte-cursor request leaves is at its end and within the registers (10_state R16). -/
theorem setCursor_ofPos {s : State} (h : Invariants s) {p : Nat} (hp : p ≤ capacity s) :
    (BitVec.ofNat 29 (p / 8)).toNat = p / 8 ∧ (BitVec.ofNat 3 (p % 8)).toNat = p % 8 := by
  have h1 := h.len_le_bufMax
  have h2 := bufMax_le s.cfg
  rw [capacity_eq] at hp
  refine ⟨?_, ?_⟩
  · rw [BitVec.toNat_ofNat, Nat.mod_eq_of_lt (by omega)]
  · rw [BitVec.toNat_ofNat, Nat.mod_eq_of_lt (by omega)]

/-- Moving the byte-cursor counter within the capacity keeps the invariants. -/
theorem Invariants.moveCursor {s t : State} (h : Invariants s) (he : s.eng = .byte) {p : Nat} (hp : p ≤ capacity s)
    (h1 : t.bidx = BitVec.ofNat 29 (p / 8)) (h2 : t.boff = BitVec.ofNat 3 (p % 8))
    (ht : t = { s with bidx := t.bidx, boff := t.boff, mem := t.mem, result := t.result })
    (hw : Memory.wf t.mem = true) (hb : Memory.below s.cfg.bufMax t.mem = true) : Invariants t := by
  obtain ⟨c1, c2⟩ := setCursor_ofPos h hp
  have hne : ∀ {d}, ¬ InSession d .word s := fun hs => by have := hs.2.2; rw [he] at this; cases this
  have hne' : ¬ s.eng = .word := by rw [he]; decide
  rw [capacity_eq] at hp
  rw [ht]
  exact
    { len_le_bufMax := h.len_le_bufMax
      bitPos_le_capacity := by
        simp only [bitPos, he, h1, h2, c1, c2, capacity_eq]
        omega
      boff_zero_at_end := by
        simp only [h1, c1]
        intro hl
        apply BitVec.eq_of_toNat_eq
        rw [h2, c2, BitVec.toNat_ofNat, Nat.zero_mod]
        omega
      acnt_le := h.acnt_le
      acnt_pos := fun hs => absurd hs hne
      free_bits_zero := fun hs => absurd hs hne
      wptr_aligned := h.wptr_aligned
      wptr_le_len := fun _ he' => absurd he' hne'
      len_aligned := fun _ he' => absurd he' hne'
      word_side_idle := h.word_side_idle
      byte_side_idle := fun he' => absurd he' hne'
      loaded_before_counted := fun he' => absurd he' hne'
      acc_is_last_word := fun hs => absurd hs hne
      ewidth_zero := h.ewidth_zero
      mem_wf := hw
      mem_below := hb }

/-- What WRITE leaves in the counter (40_byte_cursor R81). -/
theorem afterPack_cursor {w : Nat} {s : State} (he : s.eng = .byte) :
    (afterPack w s).bidx = BitVec.ofNat 29 ((bitPos s + w) / 8) ∧
      (afterPack w s).boff = BitVec.ofNat 3 ((bitPos s + w) % 8) := by
  rw [bitPos_byte he, afterPack_bidx, afterPack_boff, packLoop_cursor w w _ _ _ (Nat.le_refl w) (cursor_off_lt s)]
  exact ⟨rfl, rfl⟩

/-- What READ leaves in the counter (40_byte_cursor R85). -/
theorem afterUnpack_cursor {w : Nat} {s : State} (he : s.eng = .byte) :
    (afterUnpack w s).bidx = BitVec.ofNat 29 ((bitPos s + w) / 8) ∧
      (afterUnpack w s).boff = BitVec.ofNat 3 ((bitPos s + w) % 8) := by
  rw [bitPos_byte he, afterUnpack_bidx, afterUnpack_boff, unpackLoop_cursor _ w w _ _ _ (Nat.le_refl w) (cursor_off_lt s)]
  exact ⟨rfl, rfl⟩

theorem Invariants.afterPack {w : Nat} {s : State} (h : Invariants s) (he : s.eng = .byte) (hf : Fits w s) : Invariants (afterPack w s) := by
  have hk := packLoop_keeps w w (valueOperand w s) (cursor s) s.mem (Nat.le_refl w) (cursor_off_lt s)
  refine h.moveCursor he hf.2 (afterPack_cursor he).1 (afterPack_cursor he).2 rfl (hk.1 h.mem_wf)
    (hk.2 _ ?_ h.mem_below)
  rw [← bitPos_byte he]
  exact Nat.le_trans hf.2 (Nat.mul_le_mul_right 8 h.len_le_bufMax)

theorem Invariants.afterUnpack {w : Nat} {s : State} (h : Invariants s) (he : s.eng = .byte) (hf : Fits w s) :
    Invariants (afterUnpack w s) :=
  h.moveCursor he hf.2 (afterUnpack_cursor he).1 (afterUnpack_cursor he).2 rfl h.mem_wf h.mem_below

/-! ### The word-accumulator engine -/

theorem Invariants.afterPending {w : Nat} {s : State} (h : Invariants s) (hs : InSession .write .word s) (hf : Fits w s)
    (hw : w < s.acnt.toNat) : Invariants (afterPending w (valueOperand w s) s) := by
  have h32 := h.acnt_le
  have hacc := toNat_ofNat32 (pending_lt s.acc.isLt (valueOperand_lt w s) (Nat.le_of_lt hw) h32)
  have hcnt : (BitVec.ofNat 6 (s.acnt.toNat - w)).toNat = s.acnt.toNat - w := toNat_ofNat6 (by omega)
  have hcap := hf.2
  rw [bitPos_wordWrite hs.2.2 hs.2.1, capacity_eq] at hcap
  have hne : ¬ s.eng = .byte := by rw [hs.2.2]; decide
  have hnr : ¬ s.dir = .read := by rw [hs.2.1]; decide
  exact
    { len_le_bufMax := h.len_le_bufMax
      bitPos_le_capacity := by
        rw [bitPos_wordWrite (s := Machine.afterPending w _ s) hs.2.2 hs.2.1, capacity_eq, afterPending_acnt, hcnt,
          afterPending_wptr, afterPending_len]
        omega
      boff_zero_at_end := h.boff_zero_at_end
      acnt_le := by rw [afterPending_acnt, hcnt]; omega
      acnt_pos := fun _ => by rw [afterPending_acnt, hcnt]; omega
      free_bits_zero := fun _ => by
        rw [afterPending_acnt, afterPending_acc, hcnt, hacc]
        apply Nat.eq_of_testBit_eq
        intro j
        simp only [Nat.testBit_and, Nat.testBit_or, Nat.testBit_shiftLeft, testBit_mask, Nat.zero_testBit]
        by_cases hj : j < s.acnt.toNat - w
        · simp [free_bits h hs (j := j) (by omega), Nat.not_le.mpr hj]
        · simp [hj]
      wptr_aligned := h.wptr_aligned
      wptr_le_len := h.wptr_le_len
      len_aligned := h.len_aligned
      word_side_idle := fun he => absurd he hne
      byte_side_idle := h.byte_side_idle
      loaded_before_counted := fun _ hd => absurd hd hnr
      acc_is_last_word := fun hs' => absurd hs'.2.1 hnr
      ewidth_zero := h.ewidth_zero
      mem_wf := h.mem_wf
      mem_below := h.mem_below }

/-- A word store inside the buffer that leaves a new pending word keeps the invariants. -/
theorem Invariants.afterStore {word acc free : Nat} {s : State} (h : Invariants s) (hs : InSession .write .word s)
    (hroom : nextWordAddr s ≤ s.len.toNat) (hacc : acc < 2 ^ 32) (h1 : 1 ≤ free) (h32 : free ≤ 32)
    (hz : acc &&& mask free = 0) (hcap : (s.wptr.toNat + 4) * 8 + (32 - free) ≤ s.len.toNat * 8) :
    Invariants (afterStore word acc free s) := by
  have hw := nextWordAddr_toNat h hroom
  have ha := toNat_ofNat32 hacc
  have hc : (BitVec.ofNat 6 free).toNat = free := toNat_ofNat6 (by omega)
  have hne : ¬ s.eng = .byte := by rw [hs.2.2]; decide
  have hnr : ¬ s.dir = .read := by rw [hs.2.1]; decide
  have hal := h.wptr_aligned
  have hlen := h.len_le_bufMax
  simp only [nextWordAddr, wordBytes_eq] at hroom
  exact
    { len_le_bufMax := hlen
      bitPos_le_capacity := by
        rw [bitPos_wordWrite (s := Machine.afterStore word acc free s) hs.2.2 hs.2.1, capacity_eq, afterStore_acnt, hc,
          afterStore_wptr, hw, afterStore_len]
        exact hcap
      boff_zero_at_end := h.boff_zero_at_end
      acnt_le := by rw [afterStore_acnt, hc]; exact h32
      acnt_pos := fun _ => by rw [afterStore_acnt, hc]; exact h1
      free_bits_zero := fun _ => by rw [afterStore_acnt, afterStore_acc, hc, ha]; exact hz
      wptr_aligned := by rw [afterStore_wptr, hw]; omega
      wptr_le_len := fun _ _ => by rw [afterStore_wptr, hw]; exact hroom
      len_aligned := h.len_aligned
      word_side_idle := fun he => absurd he hne
      byte_side_idle := h.byte_side_idle
      loaded_before_counted := fun _ hd => absurd hd hnr
      acc_is_last_word := fun hs' => absurd hs'.2.1 hnr
      ewidth_zero := h.ewidth_zero
      mem_wf := Memory.wf_writeWord _ _ h.mem_wf
      mem_below := Memory.below_writeWord _ h.mem_below (by rw [afterStore_cfg]; omega) }

theorem Invariants.afterUnread {w : Nat} {s : State} (h : Invariants s) (hs : InSession .read .word s) (hf : Fits w s)
    (hw : w ≤ s.acnt.toNat) : Invariants (afterUnread w s) := by
  have h32 := h.acnt_le
  have hc : (BitVec.ofNat 6 (s.acnt.toNat - w)).toNat = s.acnt.toNat - w := toNat_ofNat6 (by omega)
  have hcap := hf.2
  rw [bitPos_wordRead hs.2.2 hs.2.1, capacity_eq] at hcap
  have hb := h.loaded_before_counted hs.2.2 hs.2.1
  have hne : ¬ s.eng = .byte := by rw [hs.2.2]; decide
  have hnw : ¬ s.dir = .write := by rw [hs.2.1]; decide
  exact
    { len_le_bufMax := h.len_le_bufMax
      bitPos_le_capacity := by
        rw [bitPos_wordRead (s := Machine.afterUnread w s) hs.2.2 hs.2.1, capacity_eq, afterUnread_acnt, hc,
          afterUnread_wptr, afterUnread_len]
        omega
      boff_zero_at_end := h.boff_zero_at_end
      acnt_le := by rw [afterUnread_acnt, hc]; omega
      acnt_pos := fun hs' => absurd hs'.2.1 hnw
      free_bits_zero := fun hs' => absurd hs'.2.1 hnw
      wptr_aligned := h.wptr_aligned
      wptr_le_len := h.wptr_le_len
      len_aligned := h.len_aligned
      word_side_idle := fun he => absurd he hne
      byte_side_idle := h.byte_side_idle
      loaded_before_counted := fun _ _ => by rw [afterUnread_acnt, hc, afterUnread_wptr]; omega
      acc_is_last_word := fun _ h0 => by
        rw [afterUnread_acnt, hc] at h0
        exact h.acc_is_last_word hs (by omega)
      ewidth_zero := h.ewidth_zero
      mem_wf := h.mem_wf
      mem_below := h.mem_below }

theorem Invariants.afterLoad {w : Nat} {s : State} (h : Invariants s) (hs : InSession .read .word s) (hf : Fits w s)
    (hw : s.acnt.toNat < w) : Invariants (afterLoad w s) := by
  have hroom := load_room h hs hf hw
  have hp := nextWordAddr_toNat h hroom
  have h32 := hf.1
  simp only [maxWidth_eq] at h32
  have hc : (BitVec.ofNat 6 (32 - (w - s.acnt.toNat))).toNat = 32 - (w - s.acnt.toNat) := toNat_ofNat6 (by omega)
  have hcap := hf.2
  rw [bitPos_wordRead hs.2.2 hs.2.1, capacity_eq] at hcap
  have hb := h.loaded_before_counted hs.2.2 hs.2.1
  have hal := h.wptr_aligned
  have hne : ¬ s.eng = .byte := by rw [hs.2.2]; decide
  have hnw : ¬ s.dir = .write := by rw [hs.2.1]; decide
  simp only [nextWordAddr, wordBytes_eq] at hroom
  exact
    { len_le_bufMax := h.len_le_bufMax
      bitPos_le_capacity := by
        rw [bitPos_wordRead (s := Machine.afterLoad w s) hs.2.2 hs.2.1, capacity_eq, afterLoad_acnt, hc,
          afterLoad_wptr, hp, afterLoad_len]
        omega
      boff_zero_at_end := h.boff_zero_at_end
      acnt_le := by rw [afterLoad_acnt, hc]; omega
      acnt_pos := fun hs' => absurd hs'.2.1 hnw
      free_bits_zero := fun hs' => absurd hs'.2.1 hnw
      wptr_aligned := by rw [afterLoad_wptr, hp]; omega
      wptr_le_len := fun _ _ => by rw [afterLoad_wptr, hp]; exact hroom
      len_aligned := h.len_aligned
      word_side_idle := fun he => absurd he hne
      byte_side_idle := h.byte_side_idle
      loaded_before_counted := fun _ _ => by rw [afterLoad_acnt, hc, afterLoad_wptr, hp]; omega
      acc_is_last_word := fun _ _ => by
        rw [afterLoad_acc, afterLoad_wptr, hp, afterLoad_mem, toNat_ofNat32 (Memory.readWord_lt _ _),
          Nat.add_sub_cancel]
      ewidth_zero := h.ewidth_zero
      mem_wf := h.mem_wf
      mem_below := h.mem_below }

theorem rest_free_zero (v lo : Nat) : (v &&& mask lo) <<< (32 - lo) &&& mask (32 - lo) = 0 := by
  apply Nat.eq_of_testBit_eq
  intro j
  simp only [Nat.testBit_and, Nat.testBit_shiftLeft, testBit_mask, Nat.zero_testBit]
  by_cases hj : j < 32 - lo
  · simp [Nat.not_le.mpr hj]
  · simp [hj]

/-! ### The cursor after each branch (10_state R11: a WRITE or READ advances it by its width) -/

theorem bitPos_moveCursor {s t : State} (h : Invariants s) {p : Nat} (hp : p ≤ capacity s)
    (het : t.eng = .byte) (h1 : t.bidx = BitVec.ofNat 29 (p / 8)) (h2 : t.boff = BitVec.ofNat 3 (p % 8)) :
    bitPos t = p := by
  obtain ⟨c1, c2⟩ := setCursor_ofPos h hp
  rw [bitPos_byte het]
  simp only [cursor, Cursor.pos, h1, h2, c1, c2]
  omega

theorem bitPos_afterPack {w : Nat} {s : State} (h : Invariants s) (he : s.eng = .byte) (hf : Fits w s) :
    bitPos (afterPack w s) = bitPos s + w :=
  bitPos_moveCursor h hf.2 he (afterPack_cursor he).1 (afterPack_cursor he).2

theorem bitPos_afterUnpack {w : Nat} {s : State} (h : Invariants s) (he : s.eng = .byte) (hf : Fits w s) :
    bitPos (afterUnpack w s) = bitPos s + w :=
  bitPos_moveCursor h hf.2 he (afterUnpack_cursor he).1 (afterUnpack_cursor he).2

theorem bitPos_afterPending {w v : Nat} {s : State} (h : Invariants s) (hs : InSession .write .word s)
    (hw : w ≤ s.acnt.toNat) : bitPos (afterPending w v s) = bitPos s + w := by
  have h32 := h.acnt_le
  rw [bitPos_wordWrite (s := afterPending w v s) hs.2.2 hs.2.1, bitPos_wordWrite hs.2.2 hs.2.1, afterPending_acnt,
    afterPending_wptr, toNat_ofNat6 (by omega)]
  omega

theorem bitPos_afterStore {word acc free : Nat} {s : State} (h : Invariants s) (hs : InSession .write .word s)
    (hroom : nextWordAddr s ≤ s.len.toNat) (h32 : free ≤ 32) :
    bitPos (afterStore word acc free s) = (s.wptr.toNat + 4) * 8 + (32 - free) := by
  rw [bitPos_wordWrite (s := afterStore word acc free s) hs.2.2 hs.2.1, afterStore_acnt, afterStore_wptr,
    nextWordAddr_toNat h hroom, toNat_ofNat6 (by omega)]

theorem bitPos_afterUnread {w : Nat} {s : State} (h : Invariants s) (hs : InSession .read .word s)
    (hw : w ≤ s.acnt.toNat) : bitPos (afterUnread w s) = bitPos s + w := by
  have h32 := h.acnt_le
  have hb := h.loaded_before_counted hs.2.2 hs.2.1
  rw [bitPos_wordRead (s := afterUnread w s) hs.2.2 hs.2.1, bitPos_wordRead hs.2.2 hs.2.1, afterUnread_acnt,
    afterUnread_wptr, toNat_ofNat6 (by omega)]
  omega

theorem bitPos_afterLoad {w : Nat} {s : State} (h : Invariants s) (hs : InSession .read .word s) (hf : Fits w s)
    (hw : s.acnt.toNat < w) : bitPos (afterLoad w s) = bitPos s + w := by
  have hroom := load_room h hs hf hw
  have hb := h.loaded_before_counted hs.2.2 hs.2.1
  have h32 := hf.1
  simp only [maxWidth_eq] at h32
  rw [bitPos_wordRead (s := afterLoad w s) hs.2.2 hs.2.1, bitPos_wordRead hs.2.2 hs.2.1, afterLoad_acnt,
    afterLoad_wptr, nextWordAddr_toNat h hroom, toNat_ofNat6 (by omega)]
  omega

/-- A successful WRITE or READ advances the cursor by its width (10_state R11, R19). -/
theorem Success.bitPos_add {i : Instr} {s t : State} {w : Nat} (h : Success i s t) (hi : Invariants s)
    (hw : i = .write w ∨ i = .read w) : bitPos t = bitPos s + w := by
  cases h with
  | openSession | closeSession | extend | flushEmpty | flushWord => rcases hw with hw | hw <;> cases hw
  | writeByte w' _ hs hf _ =>
    obtain rfl : w' = w := by rcases hw with hw | hw <;> cases hw; rfl
    exact bitPos_afterPack hi hs.2.2 hf
  | readByte w' _ hs hf _ =>
    obtain rfl : w' = w := by rcases hw with hw | hw <;> cases hw; rfl
    exact bitPos_afterUnpack hi hs.2.2 hf
  | writePending w' _ hs _ hlt =>
    obtain rfl : w' = w := by rcases hw with hw | hw <;> cases hw; rfl
    exact bitPos_afterPending hi hs (Nat.le_of_lt hlt)
  | writeFull w' _ hs hf heq _ =>
    obtain rfl : w' = w := by rcases hw with hw | hw <;> cases hw; rfl
    have := hi.acnt_le
    rw [bitPos_afterStore hi hs (store_room hi hs hf (Nat.le_of_eq heq.symm)) (Nat.le_refl _),
      bitPos_wordWrite hs.2.2 hs.2.1]
    omega
  | writeSplit w' _ hs hf hlt _ =>
    obtain rfl : w' = w := by rcases hw with hw | hw <;> cases hw; rfl
    have h32 := hf.1
    simp only [maxWidth_eq] at h32
    have := hi.acnt_le
    rw [bitPos_afterStore hi hs (store_room hi hs hf (Nat.le_of_lt hlt)) (by omega), bitPos_wordWrite hs.2.2 hs.2.1]
    omega
  | readUnread w' _ hs _ hle =>
    obtain rfl : w' = w := by rcases hw with hw | hw <;> cases hw; rfl
    exact bitPos_afterUnread hi hs hle
  | readLoad w' _ hs hf hlt _ =>
    obtain rfl : w' = w := by rcases hw with hw | hw <;> cases hw; rfl
    exact bitPos_afterLoad hi hs hf hlt

/-! ### Every command -/

/-- Every successful branch keeps the invariants (10_state R28). -/
theorem Success.keeps_inv {i : Instr} {s t : State} (h : Success i s t) (hi : Invariants s) : Invariants t := by
  cases h with
  | openSession d e _ _ hn => exact hi.startSession hn
  | closeSession _ _ => exact hi.close
  | extend e _ hs hl hn => exact hi.extend hs hl hn
  | writeByte w _ hs hf _ => exact hi.afterPack hs.2.2 hf
  | readByte w _ hs hf _ => exact hi.afterUnpack hs.2.2 hf
  | writePending w _ hs hf hw => exact hi.afterPending hs hf hw
  | writeFull w _ hs hf hw _ =>
    have hroom := store_room hi hs hf (Nat.le_of_eq hw.symm)
    refine hi.afterStore hs hroom (by decide) (by decide) (Nat.le_refl _) (Nat.zero_and _) ?_
    simp only [nextWordAddr, wordBytes_eq] at hroom
    omega
  | writeSplit w _ hs hf hw _ =>
    have hroom := store_room hi hs hf (Nat.le_of_lt hw)
    have h32 := hf.1
    have hpos := hi.acnt_pos hs
    have hcap := hf.2
    have hle := hi.acnt_le
    rw [bitPos_wordWrite hs.2.2 hs.2.1, capacity_eq] at hcap
    simp only [maxWidth_eq] at h32
    exact hi.afterStore hs hroom (rest_lt (by omega)) (by omega) (by omega) (rest_free_zero _ _) (by omega)
  | readUnread w _ hs hf hw => exact hi.afterUnread hs hf hw
  | readLoad w _ hs hf hw _ => exact hi.afterLoad hs hf hw
  | flushEmpty _ _ _ => exact hi
  | flushWord _ hs hw _ =>
    have hroom := flush_room hi hs hw
    refine hi.afterStore hs hroom (by decide) (by decide) (Nat.le_refl _) (Nat.zero_and _) ?_
    simp only [nextWordAddr, wordBytes_eq] at hroom
    omega

/-- A failure's information is 0 unless it is E_WIDTH (60_exceptions R141). -/
theorem Failure.info_zero {i : Instr} {s : State} {c : StatusCode} {n : Nat} (h : Failure i s c n)
    (hc : c ≠ .eWidth) : n = 0 := by
  cases h <;> first | rfl | exact absurd rfl hc

end Sys2Proof.Machine
end

