-- ==== Sys2Proof/Laws/PerInstr.lean ====
section
/-! SUPPORT. Statements made of every command, one lemma per constructor. Family `Opcode`: the opcode of a command's word
is the one the opcode map gives the command (30_encoding R64), whatever its operands are. -/

namespace Sys2Proof

/-- The opcode column of 30_encoding R64. -/
def opcodeOf : Instr → BitVec 4
  | .openSession _ _ => 0x1#4
  | .closeSession => 0x2#4
  | .write _ => 0x3#4
  | .read _ => 0x4#4
  | .flush => 0x5#4
  | .extend => 0x6#4

/-- The word of the command carries the command's opcode. -/
def Laws.Opcode.Statement (i : Instr) : Prop := opField (encode i) = opcodeOf i

/-- The WIDTH field stands above the opcode. -/
theorem opField_widthBits (x : Word) (w : Nat) : opField (x ||| widthBits w) = opField x := by
  apply BitVec.eq_of_getLsbD_eq
  intro i hi
  simp [opField, widthBits, hi, show i < 8 by omega]

theorem Laws.Opcode.openSession (d : Dir) (e : Engine) : Laws.Opcode.Statement (.openSession d e) := by
  cases d <;> cases e <;> rfl

theorem Laws.Opcode.closeSession : Laws.Opcode.Statement .closeSession := rfl

theorem Laws.Opcode.write (w : Nat) : Laws.Opcode.Statement (.write w) := opField_widthBits _ w

theorem Laws.Opcode.read (w : Nat) : Laws.Opcode.Statement (.read w) := opField_widthBits _ w

theorem Laws.Opcode.flush : Laws.Opcode.Statement .flush := rfl

theorem Laws.Opcode.extend : Laws.Opcode.Statement .extend := rfl

end Sys2Proof
end

