-- ==== Sys2Proof/Laws/Step.lean ====
section
/-! SUPPORT. The step by the host's next move (60_exceptions R150): what each kind of move comes to. -/

namespace Sys2Proof.Machine

theorem step_of_pending {s : State} {h : HostMove} {rest : List HostMove} (hp : s.pending = h :: rest) :
    step s = hostMove h { s with pending := rest } := by
  rw [step, nextMove, hp]

theorem writeRegister_cmd (v : Word) (s : State) : writeRegister 0 v s = issue v s := rfl

theorem writeRegister_data (v : Word) (s : State) : writeRegister 1 v s = .next { s with data := v } := rfl

theorem issue_of_decode {x : Word} {i : Instr} (s : State) (h : decode x = .ok i) : issue x s = exec i s := by
  rw [issue, h]

theorem issue_of_illegal {x : Word} {r : Illegal} (s : State) (h : decode x = .error r) :
    issue x s = raise .eCmd 0 s := by
  rw [issue, h]

theorem withFetchWord_pending (s : State) (nbits w : Nat) :
    (s.withFetchWord nbits w).pending = .writeReg 0 (BitVec.ofNat 32 (w % 2 ^ nbits)) :: s.pending := rfl

end Sys2Proof.Machine
end

