-- ==== Sys2Proof/Laws/Streams.lean ====
section
/-! SUPPORT. The buffer as a bit stream, for both engines (20_memory R44): the bits of the buffer read as one number, the
bits of its words, and what each engine's operations do to them. -/

namespace Sys2Proof.Machine

/-! ### The byte-cursor engine's stream (40_byte_cursor R81, R85) -/

theorem bufferNat_lt (m : Memory) (n : Nat) : bufferNat m n < 2 ^ (8 * n) := by
  induction n with
  | zero => exact Nat.one_pos
  | succ n ih =>
    have hb := (Memory.read m n).isLt
    rw [bufferNat, Nat.shiftLeft_eq]
    have : 2 ^ (8 * (n + 1)) = 2 ^ (8 * n) * 256 := by rw [Nat.mul_succ, Nat.pow_add]
    rw [this]
    nlinarith [Nat.two_pow_pos (8 * n)]

/-- Bit `j` of the buffer number is bit `j mod 8` of byte `floor(j / 8)` (20_memory R44). -/
theorem testBit_bufferNat (m : Memory) (n j : Nat) :
    (bufferNat m n).testBit j = (decide (j < n * 8) && (Memory.read m (j / 8)).getLsbD (j % 8)) := by
  induction n with
  | zero => simp [bufferNat]
  | succ n ih =>
    have hlt := bufferNat_lt m n
    have hb : ∀ i, (Memory.read m n).toNat.testBit i = (Memory.read m n).getLsbD i := fun _ => rfl
    rw [bufferNat, Nat.add_comm, Nat.shiftLeft_add_eq_or_of_lt hlt, Nat.testBit_or, ih, Nat.testBit_shiftLeft, hb]
    by_cases h1 : j < n * 8
    · have h2 : ¬ (8 * n ≤ j) := by omega
      simp [h1, h2, show j < (n + 1) * 8 by omega]
    · by_cases h2 : j < (n + 1) * 8
      · rw [show j / 8 = n by omega, show j % 8 = j - 8 * n by omega]
        simp [h1, h2, show 8 * n ≤ j by omega]
      · rw [BitVec.getLsbD_of_ge _ (j - 8 * n) (by omega)]
        simp [h1, h2]

/-- WRITE of the byte-cursor engine, bit by bit of the buffer number (40_byte_cursor R81). -/
theorem bufferNat_afterPack {w : Nat} {s : State} (he : s.eng = .byte) (hf : Fits w s) :
    bufferNat (afterPack w s).mem s.len.toNat =
      bufferNat s.mem s.len.toNat ||| (valueOperand w s <<< bitPos s) := by
  apply Nat.eq_of_testBit_eq
  intro j
  have hcap := hf.2
  rw [capacity_eq] at hcap
  rw [Nat.testBit_or, testBit_bufferNat, testBit_bufferNat, Nat.testBit_shiftLeft, afterPack_mem,
    packLoop_bit w w _ _ _ (Nat.le_refl w) (cursor_off_lt s) _ _ (Nat.mod_lt j (by decide)), ← bitPos_byte he,
    show j / 8 * 8 + j % 8 = j by omega]
  by_cases h1 : j < s.len.toNat * 8
  · by_cases h2 : bitPos s ≤ j
    · by_cases h3 : j < bitPos s + w
      · simp [h1, h2, h3]
      · have : (valueOperand w s).testBit (j - bitPos s) = false :=
          Nat.testBit_lt_two_pow (Nat.lt_of_lt_of_le (valueOperand_lt w s) (Nat.pow_le_pow_right (by decide) (by omega)))
        simp [h1, h3, this]
    · simp [h1, h2]
  · have : (valueOperand w s).testBit (j - bitPos s) = false :=
      Nat.testBit_lt_two_pow (Nat.lt_of_lt_of_le (valueOperand_lt w s) (Nat.pow_le_pow_right (by decide) (by omega)))
    simp [h1, this]

/-- READ of the byte-cursor engine assembles the next `w` bits of the buffer number (40_byte_cursor R85). -/
theorem unpackLoop_bufferNat {w : Nat} {s : State} (he : s.eng = .byte) (hf : Fits w s) :
    (unpackLoop s.mem w w 0 0 (cursor s)).1 = (bufferNat s.mem s.len.toNat >>> bitPos s) &&& mask w := by
  apply Nat.eq_of_testBit_eq
  intro i
  have hcap := hf.2
  rw [capacity_eq] at hcap
  rw [unpackLoop_bit _ w w 0 0 _ (Nat.le_refl w) (cursor_off_lt s), ← bitPos_byte he, Nat.testBit_and,
    Nat.testBit_shiftRight, testBit_bufferNat, testBit_mask]
  by_cases h : i < w
  · simp [h, show bitPos s + i < s.len.toNat * 8 by omega]
  · simp [h]

/-! ### The word-accumulator engine's stream (41_word_accumulator R102, R104) -/

theorem testBit_toNat (x : Word) (i : Nat) : x.toNat.testBit i = x.getLsbD i := rfl

/-- A word store sets the stream bits of its word and leaves all others (41_word_accumulator R102). -/
theorem wordStreamBit_writeWord (m : Memory) {a : Nat} (v : Word) (ha : a % 4 = 0) (j : Nat) :
    wordStreamBit (Memory.writeWord m a v) j =
      if j / 32 = a / 4 then v.getLsbD (31 - j % 32) else wordStreamBit m j := by
  unfold wordStreamBit
  split
  · next h =>
    rw [show 4 * (j / 32) = a by omega, Memory.readWord_writeWord]
    rfl
  · next h => rw [Memory.readWord_writeWord_ne m v (by omega)]

/-- The stream bits of a write session after a store (41_word_accumulator R102): the stored word's bits, then the new
pending word's, the words before it as they were. -/
theorem writtenStreamBit_afterStore {word acc free : Nat} {s : State} (h : Invariants s)
    (hroom : nextWordAddr s ≤ s.len.toNat) (hw : word < 2 ^ 32) (hacc : acc < 2 ^ 32) (j : Nat) :
    writtenStreamBit (afterStore word acc free s) j =
      if j / 32 < s.wptr.toNat / 4 then wordStreamBit s.mem j
      else if j / 32 = s.wptr.toNat / 4 then word.testBit (31 - j % 32)
      else acc.testBit (31 - j % 32) := by
  have hal := h.wptr_aligned
  unfold writtenStreamBit
  rw [afterStore_wptr, nextWordAddr_toNat h hroom, afterStore_mem, wordStreamBit_writeWord _ _ hal, afterStore_acc,
    toNat_ofNat32 hacc]
  by_cases h1 : j / 32 < s.wptr.toNat / 4
  · rw [if_pos (by omega), if_neg (by omega), if_pos h1]
  · by_cases h2 : j / 32 = s.wptr.toNat / 4
    · rw [if_pos (by omega), if_pos h2, if_neg h1, if_pos h2, ← testBit_toNat, toNat_ofNat32 hw]
    · rw [if_neg (by omega), if_neg h1, if_neg h2]

/-- The stream law of WRITE (41_word_accumulator R102): earlier bits stay, the value's bits follow most significant
first. -/
theorem Success.writtenStreamBit {w : Nat} {s t : State} (h : Success (.write w) s t) (hi : Invariants s)
    (he : s.eng = .word) :
    (∀ j, j < bitPos s → Machine.writtenStreamBit t j = Machine.writtenStreamBit s j) ∧
      ∀ i, i < w → Machine.writtenStreamBit t (bitPos s + i) = (valueOperand w s).testBit (w - 1 - i) := by
  have hal := hi.wptr_aligned
  have h32 := hi.acnt_le
  cases h with
  | writeByte _ _ hs => exact absurd (he.symm.trans hs.2.2) (by decide)
  | writePending _ _ hs hf hlt =>
    have hv := valueOperand_lt w s
    have hacc := toNat_ofNat32 (pending_lt s.acc.isLt hv (Nat.le_of_lt hlt) h32)
    have hp := bitPos_wordWrite hs.2.2 hs.2.1
    have key : ∀ j, Machine.writtenStreamBit (afterPending w (valueOperand w s) s) j =
        if j / 32 < s.wptr.toNat / 4 then wordStreamBit s.mem j
        else (s.acc.toNat ||| (valueOperand w s <<< (s.acnt.toNat - w))).testBit (31 - j % 32) := by
      intro j
      unfold Machine.writtenStreamBit
      rw [afterPending_wptr, afterPending_mem, afterPending_acc, hacc]
    constructor
    · intro j hj
      rw [key, Machine.writtenStreamBit]
      split
      · rfl
      · rw [Nat.testBit_or, Nat.testBit_shiftLeft]
        have : (valueOperand w s).testBit (31 - j % 32 - (s.acnt.toNat - w)) = false :=
          Nat.testBit_lt_two_pow (Nat.lt_of_lt_of_le hv (Nat.pow_le_pow_right (by decide) (by omega)))
        simp [this]
    · intro i hiw
      rw [key, if_neg (by omega), Nat.testBit_or, Nat.testBit_shiftLeft, free_bits hi hs (by omega)]
      rw [show 31 - (bitPos s + i) % 32 - (s.acnt.toNat - w) = w - 1 - i by omega]
      simp only [Bool.false_or, Bool.and_eq_right_iff_imp, decide_eq_true_eq]
      omega
  | writeFull _ _ hs hf heq hm =>
    have hroom := store_room hi hs hf (Nat.le_of_eq heq.symm)
    have hv := valueOperand_lt w s
    have hle : w ≤ 32 := hf.1
    have hp := bitPos_wordWrite hs.2.2 hs.2.1
    have hword : s.acc.toNat ||| valueOperand w s < 2 ^ 32 := Nat.or_lt_two_pow s.acc.isLt (mod_lt_of_lt hv hle)
    constructor
    · intro j hj
      rw [writtenStreamBit_afterStore hi hroom hword (by decide), Machine.writtenStreamBit]
      split
      · rfl
      · rw [if_pos (by omega), Nat.testBit_or]
        have : (valueOperand w s).testBit (31 - j % 32) = false :=
          Nat.testBit_lt_two_pow (Nat.lt_of_lt_of_le hv (Nat.pow_le_pow_right (by decide) (by omega)))
        simp [this]
    · intro i hiw
      rw [writtenStreamBit_afterStore hi hroom hword (by decide), if_neg (by omega), if_pos (by omega), Nat.testBit_or,
        free_bits hi hs (by omega), show 31 - (bitPos s + i) % 32 = w - 1 - i by omega, Bool.false_or]
  | writeSplit _ _ hs hf hlt hm =>
    have hroom := store_room hi hs hf (Nat.le_of_lt hlt)
    have hv := valueOperand_lt w s
    have hle : w ≤ 32 := hf.1
    have hpos := hi.acnt_pos hs
    have hp := bitPos_wordWrite hs.2.2 hs.2.1
    have hword := filled_lt (k := w - s.acnt.toNat) s.acc.isLt hv hle
    have hrest := rest_lt (v := valueOperand w s) (show w - s.acnt.toNat ≤ 32 by omega)
    constructor
    · intro j hj
      rw [writtenStreamBit_afterStore hi hroom hword hrest, Machine.writtenStreamBit]
      split
      · rfl
      · rw [if_pos (by omega), Nat.testBit_or, Nat.testBit_shiftRight]
        have : (valueOperand w s).testBit (w - s.acnt.toNat + (31 - j % 32)) = false :=
          Nat.testBit_lt_two_pow (Nat.lt_of_lt_of_le hv (Nat.pow_le_pow_right (by decide) (by omega)))
        simp [this]
    · intro i hiw
      rw [writtenStreamBit_afterStore hi hroom hword hrest, if_neg (by omega)]
      by_cases hin : i < s.acnt.toNat
      · rw [if_pos (by omega), Nat.testBit_or, Nat.testBit_shiftRight, free_bits hi hs (by omega),
          show w - s.acnt.toNat + (31 - (bitPos s + i) % 32) = w - 1 - i by omega, Bool.false_or]
      · rw [if_neg (by omega), Nat.testBit_shiftLeft, Nat.testBit_and, testBit_mask,
          show 31 - (bitPos s + i) % 32 - (32 - (w - s.acnt.toNat)) = w - 1 - i by omega]
        simp [show w - 1 - i < w - s.acnt.toNat by omega, show 32 - (w - s.acnt.toNat) ≤ 31 - (bitPos s + i) % 32 by omega]

/-- The unread bits of a read session are the buffer's next stream bits (10_state R18, 20_memory R44). -/
theorem unread_bits {s : State} (hi : Invariants s) (hs : InSession .read .word s) {k : Nat} (hk : k < s.acnt.toNat) :
    s.acc.toNat.testBit (s.acnt.toNat - 1 - k) = wordStreamBit s.mem (bitPos s + k) := by
  have h1 := hi.loaded_before_counted hs.2.2 hs.2.1
  have h2 := hi.acnt_le
  have h3 := hi.wptr_aligned
  rw [hi.acc_is_last_word hs (by omega), wordStreamBit, bitPos_wordRead hs.2.2 hs.2.1]
  rw [show 4 * ((s.wptr.toNat * 8 - s.acnt.toNat + k) / 32) = s.wptr.toNat - 4 by omega]
  congr 1
  omega

/-- The stream law of READ (41_word_accumulator R104, 20_memory R44): RESULT is the buffer's next `w` bits, most
significant first. -/
theorem Success.result_bit {w : Nat} {s t : State} (h : Success (.read w) s t) (hi : Invariants s) (he : s.eng = .word)
    (i : Nat) :
    t.result.getLsbD i = (decide (i < w) && wordStreamBit s.mem (bitPos s + (w - 1 - i))) := by
  have h32 := hi.acnt_le
  have hal := hi.wptr_aligned
  cases h with
  | readByte _ _ hs => exact absurd (he.symm.trans hs.2.2) (by decide)
  | readUnread _ _ hs hf hle =>
    have hle32 : w ≤ 32 := hf.1
    rw [afterUnread_result, BitVec.getLsbD_ofNat, Nat.testBit_and, Nat.testBit_shiftRight, testBit_mask]
    by_cases h : i < w
    · rw [← unread_bits hi hs (by omega),
        show s.acnt.toNat - 1 - (w - 1 - i) = s.acnt.toNat - w + i by omega]
      simp [h, show i < 32 by omega]
    · simp [h]
  | readLoad _ _ hs hf hlt _ =>
    have hle32 : w ≤ 32 := hf.1
    have hb := hi.loaded_before_counted hs.2.2 hs.2.1
    rw [afterLoad_result, BitVec.getLsbD_ofNat, Nat.testBit_or, Nat.testBit_shiftLeft, Nat.testBit_and, testBit_mask,
      Nat.testBit_shiftRight]
    by_cases h : i < w
    · by_cases hlo : i < w - s.acnt.toNat
      · have hbit : (Memory.readWord s.mem s.wptr.toNat).testBit (32 - (w - s.acnt.toNat) + i) =
            wordStreamBit s.mem (bitPos s + (w - 1 - i)) := by
          rw [wordStreamBit, bitPos_wordRead hs.2.2 hs.2.1,
            show 4 * ((s.wptr.toNat * 8 - s.acnt.toNat + (w - 1 - i)) / 32) = s.wptr.toNat by omega]
          congr 1
          omega
        rw [hbit]
        simp [h, show i < 32 by omega, show ¬ (w - s.acnt.toNat ≤ i) by omega]
      · have hz : (Memory.readWord s.mem s.wptr.toNat).testBit (32 - (w - s.acnt.toNat) + i) = false :=
          Nat.testBit_lt_two_pow (Nat.lt_of_lt_of_le (Memory.readWord_lt _ _) (Nat.pow_le_pow_right (by decide) (by omega)))
        rw [hz, ← unread_bits hi hs (by omega),
          show s.acnt.toNat - 1 - (w - 1 - i) = i - (w - s.acnt.toNat) by omega]
        simp [h, show i < 32 by omega, show w - s.acnt.toNat ≤ i by omega, show i - (w - s.acnt.toNat) < s.acnt.toNat by omega]
    · have hz : (Memory.readWord s.mem s.wptr.toNat).testBit (32 - (w - s.acnt.toNat) + i) = false :=
        Nat.testBit_lt_two_pow (Nat.lt_of_lt_of_le (Memory.readWord_lt _ _) (Nat.pow_le_pow_right (by decide) (by omega)))
      have hn : ¬ (i - (w - s.acnt.toNat) < s.acnt.toNat) := by omega
      simp [h, hz, hn]

end Sys2Proof.Machine
end

