-- ==== Sys2Proof/Tests/Slice0.lean ====
section
/-! SUPPORT. Tests of one step each, with expected values from 95_test_vectors (the vector is named at each), the check of
ill-formed commands, decodings of words written out from 30_encoding R61 and R64, and for every statement with hypotheses
a witness that meets them (`witness_<statement>`). -/

namespace Sys2Proof.Machine.Tests

/-! ### Helpers -/

/-- Bytes at rising addresses from `a`. -/
def bytesFrom : Nat → List Byte → Memory
  | _, [] => []
  | a, b :: rest => (a, b) :: bytesFrom (a + 1) rest

/-- A buffer memory whose first bytes are these. -/
def bytes (l : List Byte) : Memory := bytesFrom 0 l

/-- `BUF_MAX = 0x10000`, as 95_test_vectors V-S4 chooses it. -/
def cfg64K : Config := ⟨⟨268369920, by decide⟩⟩

/-- No session, eight bytes of zeros. -/
def idle : State :=
  { State.reset with cfg := cfg64K, mem := bytes [0, 0, 0, 0, 0, 0, 0, 0] }

/-- V-S4: an open byte write session, nothing written. -/
def byteWrite (n : Word) (m : Memory) : State :=
  { idle with active := true, len := n, mem := m }

/-- An open byte read session. -/
def byteRead (n : Word) (m : Memory) : State :=
  { idle with active := true, dir := .read, len := n, mem := m }

/-- An open word write session, the pending word empty (V-W1). -/
def wordWrite (n : Word) (m : Memory) : State :=
  { idle with active := true, eng := .word, len := n, acnt := 32, mem := m }

/-- An open word read session, nothing loaded (V-W5). -/
def wordRead (n : Word) (m : Memory) : State :=
  { idle with active := true, dir := .read, eng := .word, len := n, mem := m }

/-- W1 after step 2. -/
def w1 : State := { byteWrite 2 (bytes [0x0A, 0x00]) with boff := 4 }

/-- W1 after step 7. -/
def w1r : State := { byteRead 2 (bytes [0xDA, 0xFF]) with boff := 4, result := 0xA }

/-- V-W4 after the first WRITE. -/
def w4 : State :=
  { wordWrite 8 (bytes [0, 0, 0, 0, 0, 0, 0, 0]) with acc := 0xFFFFF000, acnt := 12 }

/-- V-W5 after the first READ. -/
def w5 : State :=
  { wordRead 8 (bytes [0x23, 0xF1, 0xFF, 0xFF, 0x00, 0x00, 0x00, 0x45]) with
    acc := 0xFFFFF123, acnt := 12, wptr := 4, result := 0xFFFFF }

/-- What a look at the next state shows, `none` at a stop. -/
def after {α : Type} (o : Host.Outcome State Fault Refusal) (look : State → α) : Option α :=
  match o with
  | .next t => some (look t)
  | .fault _ => none
  | .refused _ => none

/-- The state with a value in DATA. -/
def withData (v : Word) (s : State) : State := { s with data := v }

/-- The state with moves of the host to come. -/
def withMoves (l : List HostMove) (s : State) : State := { s with pending := l }

/-! ### Ill-formed commands (30_encoding R69: a width of 64 or more has no encoding) -/

theorem test_illformed_write : Instr.wellFormed (.write 64) = false := by decide

theorem test_illformed_read : Instr.wellFormed (.read 64) = false := by decide

theorem test_wellformed_widest : Instr.wellFormed (.write 63) = true ∧ Instr.wellFormed (.read 63) = true := by decide

/-! ### Decoding: words written out field by field, 31:14 zero, WIDTH, 7:6 zero, ENG, DIR, OP (30_encoding R61, R64) -/

theorem test_decode_open_w_byte : decode 0b00000000000000_000000_00_0_0_0001#32 = .ok (.openSession .write .byte) := by
  rfl

theorem test_decode_open_r_word : decode 0b00000000000000_000000_00_1_1_0001#32 = .ok (.openSession .read .word) := by
  rfl

theorem test_decode_open_w_word : decode 0b00000000000000_000000_00_1_0_0001#32 = .ok (.openSession .write .word) := by
  rfl

theorem test_decode_close : decode 0b00000000000000_000000_00_0_0_0010#32 = .ok .closeSession := by rfl

theorem test_decode_write : decode 0b00000000000000_001010_00_0_0_0011#32 = .ok (.write 10) := by rfl

theorem test_decode_read : decode 0b00000000000000_100000_00_0_0_0100#32 = .ok (.read 32) := by rfl

theorem test_decode_flush : decode 0b00000000000000_000000_00_0_0_0101#32 = .ok .flush := by rfl

theorem test_decode_extend : decode 0b00000000000000_000000_00_0_0_0110#32 = .ok .extend := by rfl

/-- V-S3, the words of one kind each. -/
theorem test_decode_illegal :
    decode 0x00000000#32 = .error .reservedOpcode ∧ decode 0x00000007#32 = .error .reservedOpcode ∧
    decode 0x0000000F#32 = .error .reservedOpcode ∧ decode 0x00000043#32 = .error .nonzeroUnusedField ∧
    decode 0x00000061#32 = .error .nonzeroUnusedField ∧ decode 0x00000013#32 = .error .nonzeroUnusedField ∧
    decode 0x00000102#32 = .error .nonzeroUnusedField ∧ decode 0x00004003#32 = .error .nonzeroUnusedField ∧
    decode 0x00000012#32 = .error .nonzeroUnusedField ∧ decode 0x80000001#32 = .error .nonzeroUnusedField ∧
    decode 0x00000023#32 = .error .nonzeroUnusedField := by
  refine ⟨?_, ?_, ?_, ?_, ?_, ?_, ?_, ?_, ?_, ?_, ?_⟩ <;> rfl

/-- The encoder's words of the syntax table (30_encoding R69). -/
theorem test_encode_words :
    encode (.openSession .read .byte) = 0x00000011#32 ∧ encode (.openSession .read .word) = 0x00000031#32 ∧
    encode (.write 63) = 0x00003F03#32 ∧ encode (.read 32) = 0x00002004#32 := by
  decide

theorem test_decodeTableWord :
    decodeTableWord 32 0x00000001 = some (.openSession .write .byte) ∧ decodeTableWord 32 0x00000002 = some .closeSession ∧
    decodeTableWord 32 0x00000003 = some (.write 0) ∧ decodeTableWord 32 0x00000004 = some (.read 0) ∧
    decodeTableWord 32 0x00000005 = some .flush ∧ decodeTableWord 32 0x00000006 = some .extend ∧
    decodeTableWord 32 0x00000000 = none := by
  decide

/-! ### OPEN, CLOSE, EXTEND -/

/-- R120's example: a 2-byte byte write session, STATUS 0x00010000, BITPOS 0. -/
theorem test_open_byte :
    after (exec (.openSession .write .byte) (withData 2 idle)) (fun t => (statusWord t, t.len, bitPos t)) =
      some (0x00010000#32, 2#32, 0) := by
  decide

/-- V-W11: a word session of 6 bytes is E_CFG and no session. -/
theorem test_open_word_length :
    after (exec (.openSession .write .word) (withData 6 idle)) (fun t => (statusWord t, t.len)) =
      some (0x00000003#32, 0#32) := by
  decide

/-- V-S4: `BUF_MAX` is a legal length, one more is not. -/
theorem test_open_bufMax :
    after (exec (.openSession .write .byte) (withData 0x10000 idle)) (fun t => (statusWord t, t.len)) =
        some (0x00010000#32, 0x10000#32) ∧
      after (exec (.openSession .write .byte) (withData 0x10001 idle)) (fun t => (statusWord t, t.len)) =
        some (0x00000003#32, 0#32) := by
  decide

/-- V-W9: CLOSE does not flush, and ENG keeps naming the closed session. -/
theorem test_close_keeps_pending_bits :
    after (exec .closeSession { wordWrite 8 (bytes [0x55, 0x55]) with acc := 0xA0000000, acnt := 29 })
      (fun t => (statusWord t, t.acc, t.acnt, t.mem)) =
      some (0x00040000#32, 0xA0000000#32, 29#6, bytes [0x55, 0x55]) := by
  decide

/-- V-S2 row 12. -/
theorem test_close_twice : after (exec .closeSession idle) statusWord = some 0x00000002#32 := by decide

/-- V-S1: EXTEND 2 keeps the cursor; EXTEND 1 of a 2-byte buffer is E_CFG. -/
theorem test_extend_byte :
    after (exec .extend (withData 2 { byteWrite 1 (bytes [0x05]) with boff := 3 })) (fun t => (statusWord t, t.len, bitPos t)) =
        some (0x00010000#32, 2#32, 3) ∧
      after (exec .extend (withData 1 (byteWrite 2 (bytes [])))) (fun t => (statusWord t, t.len)) =
        some (0x00010003#32, 2#32) := by
  decide

/-- V-W11: EXTEND 10 in a word session is E_CFG. -/
theorem test_extend_word :
    after (exec .extend (withData 10 (wordWrite 8 (bytes [])))) (fun t => (statusWord t, t.len)) =
      some (0x00050003#32, 8#32) := by
  decide

/-! ### WRITE, READ, FLUSH -/

/-- W1 step 3: two chunks across a byte boundary. -/
theorem test_write_byte_two_chunks :
    after (exec (.write 10) (withData 0x3FD w1)) (fun t => (statusWord t, t.mem, t.bidx, t.boff)) =
      some (0x00010000#32, bytes [0xDA, 0x3F], 1#29, 6#3) := by
  decide

/-- V-B1: 32 bits over five bytes. -/
theorem test_write_byte_five_chunks :
    after (exec (.write 32) (withData 0x12345678 { byteWrite 5 (bytes [1, 0, 0, 0, 0]) with boff := 1 }))
      (fun t => (t.mem, t.bidx, t.boff)) =
      some (bytes [0xF1, 0xAC, 0x68, 0x24, 0x00], 4#29, 1#3) := by
  decide

/-- V-B4: one bit too many. -/
theorem test_write_byte_too_wide :
    after (exec (.write 4) (withData 0xF { byteWrite 1 (bytes [0x1F]) with boff := 5 }))
      (fun t => (statusWord t, t.mem, bitPos t)) =
      some (0x00010401#32, bytes [0x1F], 5) := by
  decide

/-- V-W4: a split across the word boundary. -/
theorem test_write_word_split :
    after (exec (.write 20) (withData 0x12345 w4)) (fun t => (t.mem, t.wptr, t.acc, t.acnt)) =
      some (bytes [0x23, 0xF1, 0xFF, 0xFF, 0, 0, 0, 0], 4#32, 0x45000000#32, 24#6) := by
  decide

/-- V-W6: an exact fill is stored at once. -/
theorem test_write_word_full :
    after (exec (.write 32) (withData 0xDEADBEEF (wordWrite 4 (bytes [0, 0, 0, 0]))))
      (fun t => (t.mem, t.wptr, t.acc, t.acnt)) =
      some (bytes [0xEF, 0xBE, 0xAD, 0xDE], 4#32, 0#32, 32#6) := by
  decide

/-- V-B7: 13 bits from bit 3, to the end of the buffer. -/
theorem test_read_byte :
    after (exec (.read 13) { byteRead 2 (bytes [0xA5, 0x3C]) with boff := 3 })
      (fun t => (t.result, t.bidx, t.boff)) = some (0x794#32, 2#29, 0#3) := by
  decide

/-- V-B8: five chunks. -/
theorem test_read_byte_five_chunks :
    after (exec (.read 32) { byteRead 5 (bytes [0xFF, 0x00, 0xFF, 0x00, 0xFF]) with boff := 4 })
      (fun t => (t.result, bitPos t)) = some (0xF00FF00F#32, 36) := by
  decide

/-- V-W5: 12 bits left over, a word loaded on demand. -/
theorem test_read_word_load :
    after (exec (.read 20) w5) (fun t => (t.result, t.acc, t.acnt, t.wptr)) =
      some (0x12345#32, 0x45000000#32, 24#6, 8#32) := by
  decide

/-- V-S2 row 17: E_WIDTH 33 in a read session. -/
theorem test_read_too_wide :
    after (exec (.read 33) (byteRead 4 (bytes [1, 0, 0, 0]))) statusWord = some 0x00032101#32 := by
  decide

/-- V-W1, V-W2: the pending word is stored whole, over the old bytes. -/
theorem test_flush :
    after (exec .flush { wordWrite 4 (bytes [0xFF, 0xFF, 0xFF, 0xFF]) with acc := 0x80000000, acnt := 31 })
      (fun t => (t.mem, t.wptr, t.acnt, bitPos t)) =
      some (bytes [0x00, 0x00, 0x00, 0x80], 4#32, 32#6, 32) := by
  decide

/-- V-S2 row 9: FLUSH in a byte session. -/
theorem test_flush_byte_session : after (exec .flush (byteWrite 4 (bytes []))) statusWord = some 0x00010002#32 := by
  decide

/-! ### The step and the host -/

/-- The next step of `withFetchWord` runs the command: CLOSE with no session is E_CMD (V-S2 row 1), from reset. -/
theorem test_step_fetch : after (step (State.reset.withFetchWord 32 0x00000002)) (fun t => (t.code, t.pending)) =
    some (.eCmd, []) := by
  decide

/-- V-S3: an illegal word in a session is rejected before the session is looked at. -/
theorem test_step_illegal : after (step ((byteWrite 4 (bytes [])).withFetchWord 32 0x00000023)) statusWord =
    some 0x00010002#32 := by
  decide

/-- 10_state R23, R24: DATA and WPTR at 0x04 and 0x20, an unmapped register, CMD. -/
theorem test_register_reads :
    readRegister 1 (withData 7 w5) = 7#32 ∧ readRegister 8 w5 = 4#32 ∧ readRegister 9 w5 = 0#32 ∧
      readRegister 0 w5 = 0#32 ∧ readRegister 5 w1 = 4#32 := by
  decide

/-- V-S6: a reset in the middle of V-W9 loses the pending bits and keeps the buffer. -/
theorem test_reset_input :
    after (step (withMoves [.reset] { wordWrite 8 (bytes [0x55]) with acc := 0xA0000000, acnt := 29 }))
      (fun t => (statusWord t, t.acc, t.acnt, t.mem)) = some (0#32, 0#32, 0#6, bytes [0x55]) := by
  decide

/-- A write keeps the addresses rising wherever it lands. -/
theorem test_memory_order : Memory.write (bytes [1, 2]) 0 9 = bytes [9, 2] ∧
    Memory.write [(1, 2)] 0 1 = bytes [1, 2] ∧ Memory.write (bytes [1]) 1 2 = bytes [1, 2] := by
  decide

/-! ### Witnesses: states and operands that meet the hypotheses of the statements, at the edges of their clauses -/

/-- The byte write session filled to its last bit. -/
def fullByte : State := { byteWrite 2 (bytes [0xDA, 0xFF]) with bidx := 2 }

/-- V-W6 after the exact fill: the word write session filled to its last bit. -/
def fullWord : State := { wordWrite 4 (bytes [0xEF, 0xBE, 0xAD, 0xDE]) with wptr := 4 }

/-- V-W10 after the first WRITE: two bits left. -/
def w10 : State := { wordWrite 4 (bytes [0, 0, 0, 0]) with acnt := 2 }

/-- V-W8 after the first FLUSH and WRITE. -/
def w8 : State := { wordWrite 8 (bytes [0, 0, 0, 0x80, 0, 0, 0, 0]) with acc := 0x80000000, acnt := 31, wptr := 4 }

theorem inv_idle : Invariants idle := by constructor <;> decide
theorem inv_w1 : Invariants w1 := by constructor <;> decide
theorem inv_w1r : Invariants w1r := by constructor <;> decide
theorem inv_w4 : Invariants w4 := by constructor <;> decide
theorem inv_w5 : Invariants w5 := by constructor <;> decide
theorem inv_w8 : Invariants w8 := by constructor <;> decide
theorem inv_w10 : Invariants w10 := by constructor <;> decide
theorem inv_fullWord : Invariants fullWord := by constructor <;> decide
theorem inv_wordWrite : Invariants (wordWrite 4 (bytes [0, 0, 0, 0])) := by constructor <;> decide

/-- Moves of the host keep a state's invariants. -/
theorem inv_withMoves {s : State} (l : List HostMove) (h : Invariants s) : Invariants (withMoves l s) := { h with }

theorem witness_DecodeOfEncode : (Instr.write 63).WellFormed ∧ (Instr.openSession .read .word).WellFormed ∧
    Instr.closeSession.WellFormed ∧ (Instr.read 0).WellFormed ∧ Instr.flush.WellFormed ∧ Instr.extend.WellFormed := by
  decide

theorem witness_DecodeFollowsMaskAndMatch :
    decode 0x00000031#32 = .ok (.openSession .read .word) ∧ decode 0x00000002#32 = .ok .closeSession ∧
    decode 0x00003F03#32 = .ok (.write 63) ∧ decode 0x00000004#32 = .ok (.read 0) ∧ decode 0x00000005#32 = .ok .flush ∧
    decode 0x00000006#32 = .ok .extend ∧ (0xFFFFFFF0#32 : Word).toNat % 16 = 0 ∧ 7 ≤ (0x00000007#32 : Word).toNat % 16 ∧
    7 ≤ (0x0000000F#32 : Word).toNat % 16 := by
  refine ⟨?_, ?_, ?_, ?_, ?_, ?_, ?_, ?_, ?_⟩ <;> first | rfl | decide

theorem witness_DecodedCommandIsCanonical : decode 0x00003F04#32 = .ok (.read 63) := by rfl

theorem witness_IllegalWordRaisesECmd : (withMoves [.writeReg 0 0x00004003] w1).pending = [.writeReg 0 0x00004003] ∧
    ¬ (0x00004003#32 : Word) &&& 0xFFFFFFCF#32 = 0x00000001#32 ∧ ¬ (0x00004003#32 : Word) = 0x00000002#32 ∧
    ¬ (0x00004003#32 : Word) &&& 0xFFFFC0FF#32 = 0x00000003#32 ∧
    ¬ (0x00004003#32 : Word) &&& 0xFFFFC0FF#32 = 0x00000004#32 ∧ ¬ (0x00004003#32 : Word) = 0x00000005#32 ∧
    ¬ (0x00004003#32 : Word) = 0x00000006#32 := by
  decide

theorem witness_StepRunsDecodedCommand : (withMoves [.writeReg 0 0x00000A03, .readReg 3] w1).pending =
    .writeReg 0 0x00000A03 :: [.readReg 3] ∧ decode 0x00000A03#32 = .ok (.write 10) := ⟨rfl, rfl⟩

theorem witness_FetchWordRunsNext : decode 0x00002004#32 = .ok (.read 32) := by rfl

theorem witness_IdleBlockWaits : State.reset.pending = [] ∧ w4.pending = [] := ⟨rfl, rfl⟩

theorem witness_ResetInputKeepsBuffer : (withMoves [.reset] w4).pending = .reset :: [] := rfl

theorem witness_RegisterReadsGiveTable : (withMoves [.readReg 8, .readReg 9] w5).pending = .readReg 8 :: [.readReg 9] ∧
    (withMoves [.readReg 0] w5).pending = .readReg 0 :: [] := ⟨rfl, rfl⟩

theorem witness_RegisterWritesOtherThanCmd : (withMoves [.writeReg 1 7] w5).pending = .writeReg 1 7 :: [] ∧ 1 ≠ 0 ∧
    (withMoves [.writeReg 9 7] w5).pending = .writeReg 9 7 :: [] ∧ 9 ≠ 0 := by
  decide

/-- The three clauses at the addresses where they meet: `BUF_MAX`, `LEN - 1`, `LEN` of a session, `BUF_MAX - 1` without
one. -/
theorem witness_HostByteWriteOwnership :
    ((withMoves [.writeByte 0x10000 1] w1).pending = [.writeByte 0x10000 1] ∧ w1.cfg.bufMax ≤ 0x10000) ∧
    ((withMoves [.writeByte 1 1] w1).pending = [.writeByte 1 1] ∧ 1 < w1.cfg.bufMax ∧ w1.active = true ∧
      1 < w1.len.toNat) ∧
    ((withMoves [.writeByte 2 1] w1).pending = [.writeByte 2 1] ∧ 2 < w1.cfg.bufMax ∧ w1.len.toNat ≤ 2) ∧
    ((withMoves [.writeByte 0xFFFF 1] idle).pending = [.writeByte 0xFFFF 1] ∧ 0xFFFF < idle.cfg.bufMax ∧
      idle.active = false) := by
  decide

theorem witness_HostReadsBackWrittenByte :
    (withMoves [.writeByte 2 7, .readByte 1] w1).pending = .writeByte 2 7 :: .readByte 1 :: [] ∧ 2 < w1.cfg.bufMax ∧
      1 < w1.cfg.bufMax ∧ w1.len.toNat ≤ 2 := by
  decide

theorem witness_HostMovesKeepSession :
    (withMoves [.writeByte 2 7] w1).pending = .writeByte 2 7 :: [] ∧ w1.active = true ∧
      (∀ x, HostMove.writeByte 2 7 ≠ .writeReg 0 x) ∧ HostMove.writeByte 2 7 ≠ .reset ∧
      ∃ t, step (withMoves [.writeByte 2 7] w1) = .next t :=
  ⟨rfl, rfl, fun _ h => HostMove.noConfusion h, fun h => HostMove.noConfusion h, _, rfl⟩

/-- A step of each kind of session, and an idle one, from states that meet the invariants. -/
theorem witness_StepKeepsInvariants :
    (Invariants (withMoves [.writeReg 0 0x00000A03] w1) ∧ ∃ t, step (withMoves [.writeReg 0 0x00000A03] w1) = .next t) ∧
    (Invariants (withMoves [.writeReg 0 0x00001403] w4) ∧ ∃ t, step (withMoves [.writeReg 0 0x00001403] w4) = .next t) ∧
    (Invariants (withMoves [.writeReg 0 0x00001404] w5) ∧ ∃ t, step (withMoves [.writeReg 0 0x00001404] w5) = .next t) ∧
    (Invariants (withMoves [.reset] w4) ∧ ∃ t, step (withMoves [.reset] w4) = .next t) :=
  ⟨⟨inv_withMoves _ inv_w1, _, rfl⟩, ⟨inv_withMoves _ inv_w4, _, rfl⟩, ⟨inv_withMoves _ inv_w5, _, rfl⟩,
    inv_withMoves _ inv_w4, _, rfl⟩

theorem witness_StepKeepsMemoryCanonical : Memory.wf (withMoves [.writeByte 1 7] idle).mem = true ∧
    ∃ t, step (withMoves [.writeByte 1 7] idle) = .next t := ⟨by decide, _, rfl⟩

theorem witness_EveryCommandCompletes : Invariants idle ∧ Invariants w1 ∧ Invariants w1r ∧ Invariants w4 ∧ Invariants w5 :=
  ⟨inv_idle, inv_w1, inv_w1r, inv_w4, inv_w5⟩

/-- Both kinds of stop. -/
theorem witness_StepStopsOnHostBreachOnly :
    (Invariants (withMoves [.readByte 0x10000] w1) ∧
      step (withMoves [.readByte 0x10000] w1) = .fault (.hostNoSuchByte 0x10000)) ∧
    (Invariants (withMoves [.writeByte 1 7] w1) ∧ step (withMoves [.writeByte 1 7] w1) = .refused (.hostWriteInSession 1)) :=
  ⟨⟨inv_withMoves _ inv_w1, rfl⟩, inv_withMoves _ inv_w1, rfl⟩

/-- Every status code is reached. -/
theorem witness_StatusReportsOutcome :
    (∃ t, exec (.write 10) (withData 0x3FD w1) = .next t ∧ t.code = .ok) ∧
    (∃ t, exec (.write 13) w1 = .next t ∧ t.code = .eWidth) ∧
    (∃ t, exec (.read 1) w1 = .next t ∧ t.code = .eCmd) ∧
    (∃ t, exec .extend (withData 1 w1) = .next t ∧ t.code = .eCfg) :=
  ⟨⟨_, rfl, rfl⟩, ⟨_, rfl, rfl⟩, ⟨_, rfl, rfl⟩, ⟨_, rfl, rfl⟩⟩

/-- Every command has a session state that gives E_CMD. -/
theorem witness_WrongSessionRaisesECmd : allowed (.openSession .read .byte) w1 = false ∧ allowed .closeSession idle = false ∧
    allowed (.write 1) w1r = false ∧ allowed (.read 1) w4 = false ∧ allowed .flush w1 = false ∧
    allowed .extend w5 = false := by
  decide

/-- A command that fails, and an illegal word. -/
theorem witness_FailureChangesOnlyStatus : (∃ t, exec (.write 13) w1 = .next t ∧ t.code ≠ .ok) ∧
    decode 0x00004003#32 = .error .nonzeroUnusedField := ⟨⟨_, rfl, by decide⟩, rfl⟩

/-- A width above 32, and one bit too many, in all four session kinds. -/
theorem witness_WidthErrorLeavesState : 33 < 64 ∧ 32 < 33 ∧ 63 < 64 ∧ 32 < 63 ∧
    (w1.len.toNat * 8 < bitPos w1 + 13 ∧ InSession .write .byte w1) ∧
    (w1r.len.toNat * 8 < bitPos w1r + 13 ∧ InSession .read .byte w1r) ∧
    (w10.len.toNat * 8 < bitPos w10 + 3 ∧ InSession .write .word w10) ∧
    (w5.len.toNat * 8 < bitPos w5 + 45 ∧ InSession .read .word w5) := by
  decide

theorem witness_CommandsWriteOnlyTheirState :
    (∃ t, exec (.openSession .write .word) (withData 4 idle) = .next t) ∧ (∃ t, exec .closeSession w1 = .next t) ∧
    (∃ t, exec (.write 20) w4 = .next t) ∧ (∃ t, exec (.read 20) w5 = .next t) ∧ (∃ t, exec .flush w4 = .next t) ∧
    (∃ t, exec .extend (withData 8 w4) = .next t) :=
  ⟨⟨_, rfl⟩, ⟨_, rfl⟩, ⟨_, rfl⟩, ⟨_, rfl⟩, ⟨_, rfl⟩, _, rfl⟩

/-- The byte below and the byte above the touched range, and the word's two neighbours. -/
theorem witness_StoresOnlyAtTheCursor :
    ((∃ t, exec (.write 3) { w1 with boff := 0, bidx := 1 } = .next t) ∧ 0 < 1 ∧
      touchedEnd 3 { w1 with boff := 0, bidx := 1 } ≤ 2) ∧
    ((∃ t, exec .flush w8 = .next t) ∧ 3 < w8.wptr.toNat ∧ nextWordAddr w8 ≤ 8) :=
  ⟨⟨⟨_, rfl⟩, by decide, by decide⟩, ⟨_, rfl⟩, by decide, by decide⟩

theorem witness_ReadSessionNeverWritesBuffer : w1r.active = true ∧ w1r.dir = .read ∧ ∃ t, exec (.read 12) w1r = .next t :=
  ⟨rfl, rfl, _, rfl⟩

theorem witness_BytesAboveLenUntouched : Invariants w1 ∧ (∃ t, exec (.write 12) w1 = .next t) ∧ w1.len.toNat ≤ 2 :=
  ⟨inv_w1, ⟨_, rfl⟩, by decide⟩

/-- The two memories differ at `LEN`. -/
theorem witness_OutcomeIgnoresBytesAboveLen : Invariants w1 ∧
    (∀ a, a < w1.len.toNat → Memory.read (bytes [0x0A, 0x00, 0x55]) a = Memory.read w1.mem a) ∧
    ∃ t, exec (.write 12) w1 = .next t := by
  refine ⟨inv_w1, fun a h => ?_, _, rfl⟩
  have h2 : a < 2 := h
  interval_cases a <;> rfl

theorem witness_CursorNeverDecreases : Invariants w4 ∧ w4.active = true ∧ ∃ t, exec .flush w4 = .next t :=
  ⟨inv_w4, rfl, _, rfl⟩

/-- The clauses of OPEN: in a session; a bad length; the longest and the shortest good one. -/
theorem witness_OpenStartsSession : w1.active = true ∧ idle.active = false ∧
    idle.cfg.bufMax < (withData 0x10001 idle).data.toNat ∧ (withData 6 idle).data.toNat % 4 ≠ 0 ∧
    ((withData 0x10000 idle).data.toNat ≤ idle.cfg.bufMax ∧ (withData 0x10000 idle).data.toNat % 4 = 0) ∧
    ((withData 0 idle).data.toNat ≤ idle.cfg.bufMax ∧ (withData 0 idle).data.toNat % 4 = 0) := by
  decide

theorem witness_CloseEndsSession : w4.active = true ∧ idle.active = false := ⟨rfl, rfl⟩

/-- The clauses of EXTEND: no write session; shorter, too long, no multiple of 4; the same length and `BUF_MAX`. -/
theorem witness_ExtendEnlargesBuffer : ¬ (w5.active = true ∧ w5.dir = .write) ∧ ¬ (idle.active = true ∧ idle.dir = .write) ∧
    (w4.active = true ∧ w4.dir = .write) ∧ (withData 7 w4).data.toNat < w4.len.toNat ∧
    w4.cfg.bufMax < (withData 0x10001 w4).data.toNat ∧ (w4.eng = .word ∧ (withData 10 w4).data.toNat % 4 ≠ 0) ∧
    (w4.len.toNat ≤ (withData 8 w4).data.toNat ∧ (withData 8 w4).data.toNat % 4 = 0) ∧
    (w4.len.toNat ≤ (withData 0x10000 w4).data.toNat ∧ (withData 0x10000 w4).data.toNat ≤ w4.cfg.bufMax ∧
      (withData 0x10000 w4).data.toNat % 4 = 0) := by
  decide

/-- The two states before OPEN differ in RESULT and in every engine register the last session left. -/
theorem witness_OpenForgetsThePast : ∃ s s' t : State, s.active = false ∧ s'.active = false ∧ s ≠ s' ∧ s'.cfg = s.cfg ∧
    s'.data = s.data ∧ s'.mem = s.mem ∧ exec (.openSession .write .word) s = .next t ∧ t.code = .ok :=
  ⟨withData 4 idle, withData 4 { idle with eng := .word, acc := 5, acnt := 3, wptr := 4, result := 9, len := 8 }, _,
    rfl, rfl, by decide, rfl, rfl, rfl, rfl, rfl⟩

/-- A WRITE of every bit left, and of width 0 in a full buffer. -/
theorem witness_ByteWriteStreamLaw :
    (InSession .write .byte w1 ∧ Fits 12 w1 ∧ w1.len.toNat ≤ w1.cfg.bufMax) ∧
    (InSession .write .byte fullByte ∧ Fits 0 fullByte ∧ fullByte.len.toNat ≤ fullByte.cfg.bufMax) := by
  decide

theorem witness_ByteWriteOnlySetsBits : InSession .write .byte w1 ∧ (∃ t, exec (.write 12) w1 = .next t) ∧
    (Memory.read w1.mem 0).getLsbD 3 = true := ⟨by decide, ⟨_, rfl⟩, by decide⟩

theorem witness_ByteReadStreamLaw : (InSession .read .byte w1r ∧ Fits 12 w1r ∧ w1r.len.toNat ≤ w1r.cfg.bufMax) ∧
    Fits 0 w1r := by
  decide

/-- W1's values, with a width 0 mixed in. -/
theorem witness_ByteRoundTrip : Invariants idle ∧ idle.active = false ∧ (2 : Word).toNat ≤ idle.cfg.bufMax ∧
    (∀ x ∈ ([(10, 4), (1021, 10), (5, 0), (3, 2)] : List (Word × Nat)), x.2 ≤ 32) ∧
    (([(10, 4), (1021, 10), (5, 0), (3, 2)] : List (Word × Nat)).map Prod.snd).sum ≤ (2 : Word).toNat * 8 ∧
    ∀ a, a < (2 : Word).toNat → Memory.read idle.mem a = 0#8 := by
  refine ⟨inv_idle, rfl, by decide, by decide, by decide, fun a h => ?_⟩
  have h2 : a < 2 := h
  interval_cases a <;> rfl

theorem witness_MaskingLaw : (0x1FF : Word).toNat % 2 ^ 8 = (withData 0xFF w1).data.toNat % 2 ^ 8 ∧
    ∃ t, exec (.write 8) (withData 0xFF w1) = .next t := ⟨by decide, _, rfl⟩

/-- Exactly the bits left, in all four session kinds, and none left. -/
theorem witness_BoundaryLaw :
    (Invariants w1 ∧ bitPos w1 + 12 = w1.len.toNat * 8 ∧ InSession .write .byte w1) ∧
    (Invariants w1r ∧ bitPos w1r + 12 = w1r.len.toNat * 8 ∧ InSession .read .byte w1r) ∧
    (Invariants w10 ∧ bitPos w10 + 2 = w10.len.toNat * 8 ∧ InSession .write .word w10) ∧
    (Invariants (wordWrite 4 (bytes [0, 0, 0, 0])) ∧ bitPos (wordWrite 4 (bytes [0, 0, 0, 0])) + 32 = 4 * 8) ∧
    (Invariants fullWord ∧ bitPos fullWord + 0 = fullWord.len.toNat * 8) :=
  ⟨⟨inv_w1, by decide, by decide⟩, ⟨inv_w1r, by decide, by decide⟩, ⟨inv_w10, by decide, by decide⟩,
    ⟨inv_wordWrite, by decide⟩, inv_fullWord, by decide⟩

/-- The read side of the word engine at its boundary: 12 bits left in the last word. -/
def w5end : State := { w5 with acc := 0x45000000, acnt := 12, wptr := 8 }

theorem inv_w5end : Invariants w5end := by constructor <;> decide

theorem witness_BoundaryLaw_wordRead : Invariants w5end ∧ bitPos w5end + 12 = w5end.len.toNat * 8 ∧
    InSession .read .word w5end := ⟨inv_w5end, by decide, by decide⟩

/-- P3's first step, and one that ends at a byte's end. -/
theorem witness_AdapterStepGrowsByteBuffer : Invariants w1 ∧ InSession .write .byte w1 ∧ 13 ≤ 32 ∧ 20 ≤ 32 ∧
    (w1.len.toNat * 8 < bitPos w1 + 13 ∧ (3 : Word).toNat = (bitPos w1 + 13 + 7) / 8 ∧ (3 : Word).toNat ≤ w1.cfg.bufMax) ∧
    (w1.len.toNat * 8 < bitPos w1 + 20 ∧ (3 : Word).toNat = (bitPos w1 + 20 + 7) / 8) :=
  ⟨inv_w1, by decide, by decide, by decide, by decide, by decide⟩

/-- Its last clause: every bit at or past the cursor is 0. -/
theorem witness_AdapterStepGrowsByteBuffer_zeroed : ∀ j, bitPos { w1 with mem := bytes [0x0A, 0, 0] } ≤ j →
    j < (3 : Word).toNat * 8 → (Memory.read (bytes [0x0A, 0, 0]) (j / 8)).getLsbD (j % 8) = false := by
  intro j h1 h2
  have h3 : 4 ≤ j := h1
  have h4 : j < 24 := h2
  interval_cases j <;> rfl

/-- The four branches of the word WRITE. -/
theorem witness_WordWriteBranches :
    (Invariants w4 ∧ InSession .write .word w4 ∧ Fits 11 w4 ∧ 11 < w4.acnt.toNat) ∧ (Fits 12 w4 ∧ 12 = w4.acnt.toNat) ∧
    (Fits 13 w4 ∧ w4.acnt.toNat < 13) ∧ ¬ Fits 33 w4 ∧ (Invariants w10 ∧ InSession .write .word w10 ∧ ¬ Fits 3 w10) :=
  ⟨⟨inv_w4, by decide, by decide, by decide⟩, by decide, by decide, by decide, inv_w10, by decide, by decide⟩

theorem witness_WordWriteStreamLaw : Invariants w8 ∧ InSession .write .word w8 ∧ Fits 31 w8 ∧ Fits 0 w8 :=
  ⟨inv_w8, by decide, by decide, by decide⟩

/-- The three branches of the word READ. -/
theorem witness_WordReadBranches :
    (Invariants w5 ∧ InSession .read .word w5 ∧ Fits 12 w5 ∧ 12 ≤ w5.acnt.toNat) ∧ (Fits 13 w5 ∧ w5.acnt.toNat < 13) ∧
    ¬ Fits 33 w5 ∧ (Invariants w5end ∧ InSession .read .word w5end ∧ ¬ Fits 13 w5end) :=
  ⟨⟨inv_w5, by decide, by decide, by decide⟩, by decide, by decide, inv_w5end, by decide, by decide⟩

theorem witness_WordReadStreamLaw : Invariants w5 ∧ InSession .read .word w5 ∧ Fits 32 w5 :=
  ⟨inv_w5, by decide, by decide⟩

/-- The clauses of FLUSH: an empty word, a partial one, another session. -/
theorem witness_FlushStoresPendingWord : (Invariants fullWord ∧ InSession .write .word fullWord ∧ fullWord.acnt.toNat = 32) ∧
    (Invariants w8 ∧ InSession .write .word w8 ∧ w8.acnt.toNat < 32) ∧ (Invariants w1 ∧ ¬ InSession .write .word w1) :=
  ⟨⟨inv_fullWord, by decide, by decide⟩, ⟨inv_w8, by decide, by decide⟩, inv_w1, by decide⟩

/-- V-W4's values. -/
theorem witness_WordRoundTrip : Invariants idle ∧ idle.active = false ∧ (8 : Word).toNat % 4 = 0 ∧
    (8 : Word).toNat ≤ idle.cfg.bufMax ∧
    (∀ x ∈ ([(0xFFFFFFFF, 20), (0x12345, 20)] : List (Word × Nat)), x.2 ≤ 32) ∧
    (([(0xFFFFFFFF, 20), (0x12345, 20)] : List (Word × Nat)).map Prod.snd).sum ≤ (8 : Word).toNat * 8 :=
  ⟨inv_idle, rfl, by decide, by decide, by decide, by decide⟩

/-- P5's second growth: 3 bits into a word session with 2 left. -/
theorem witness_AdapterStepGrowsWordBuffer : Invariants w10 ∧ InSession .write .word w10 ∧ 3 ≤ 32 ∧
    w10.len.toNat * 8 < bitPos w10 + 3 ∧ (8 : Word).toNat = 4 * ((bitPos w10 + 3 + 31) / 32) ∧
    (8 : Word).toNat ≤ w10.cfg.bufMax :=
  ⟨inv_w10, by decide, by decide, by decide, by decide, by decide⟩

end Sys2Proof.Machine.Tests
end

section
/-! SUPPORT. The state between steps: the register space, the invariants of 10_state R28 along every step, what a command
may change, reset and STATUS. -/

namespace Sys2Proof.Machine

/-! ### The register space (10_state R23, R24) -/

/-- Past WPTR, register 8, the register space is unmapped (10_state R23). -/
theorem regAt_unmapped (k : Nat) : regAt (regOffset (k + 9)) = none := by
  unfold regOffset regAt
  rfl

/-- What every register number reads as (10_state R23, R24). -/
theorem readRegister_eq (r : Nat) (s : State) : readRegister r s =
    if r = 1 then s.data
    else if r = 2 then s.result
    else if r = 3 then statusWord s
    else if r = 4 then s.len
    else if r = 5 then BitVec.ofNat 32 (bitPos s)
    else if r = 6 then s.acc
    else if r = 7 then s.acnt.setWidth 32
    else if r = 8 then s.wptr
    else 0#32 := by
  match r with
  | 0 | 1 | 2 | 3 | 4 | 5 | 6 | 7 | 8 => rfl
  | k + 9 => simp [readRegister, regAt_unmapped]

/-- A register write other than to CMD stores into DATA or does nothing (10_state R14, R24). -/
theorem writeRegister_of_ne_cmd {r : Nat} (hr : r ≠ 0) (v : Word) (s : State) :
    writeRegister r v s = .next { s with data := if r = 1 then v else s.data } := by
  match r, hr with
  | 1, _ | 2, _ | 3, _ | 4, _ | 5, _ | 6, _ | 7, _ | 8, _ => rfl
  | k + 9, _ => simp [writeRegister, regAt_unmapped]

/-! ### Every step keeps the invariants (10_state R28) -/

/-- Nothing of 10_state R28 is about DATA or the host's side of the interface. -/
theorem Invariants.hostSide {s : State} (h : Invariants s) (d : Word) (p : List HostMove) (q : List Reply) :
    Invariants { s with data := d, pending := p, replies := q } :=
  { h with
    acnt_pos := fun hs => h.acnt_pos hs
    free_bits_zero := fun hs => h.free_bits_zero hs
    acc_is_last_word := fun hs => h.acc_is_last_word hs }

/-- The reset input leaves a state that meets the invariants, whatever the registers held before: only the memory list
stays (70_reset R160). -/
theorem invariants_resetBlock {s : State} (hw : Memory.wf s.mem = true) (hb : Memory.below s.cfg.bufMax s.mem = true) :
    Invariants (resetBlock s) where
  len_le_bufMax := Nat.zero_le _
  bitPos_le_capacity := Nat.zero_le _
  boff_zero_at_end _ := rfl
  acnt_le := Nat.zero_le _
  acnt_pos hs := absurd hs.1 Bool.false_ne_true
  free_bits_zero hs := absurd hs.1 Bool.false_ne_true
  wptr_aligned := rfl
  wptr_le_len ha := absurd ha Bool.false_ne_true
  len_aligned ha := absurd ha Bool.false_ne_true
  word_side_idle _ := ⟨rfl, rfl, rfl⟩
  byte_side_idle _ := ⟨rfl, rfl⟩
  loaded_before_counted _ _ := Nat.zero_le _
  acc_is_last_word hs := absurd hs.1 Bool.false_ne_true
  ewidth_zero _ := rfl
  mem_wf := hw
  mem_below := hb

/-- A byte write outside the live session's buffer keeps the invariants: the last word loaded lies below WPTR, so below
LEN (10_state R18, 20_memory R52). -/
theorem Invariants.writeByte {s : State} (h : Invariants s) {a : Nat} (v : Byte) (ha : a < s.cfg.bufMax)
    (hout : s.active = true → s.len.toNat ≤ a) : Invariants { s with mem := Memory.write s.mem a v } :=
  { h with
    acnt_pos := fun hs => h.acnt_pos hs
    free_bits_zero := fun hs => h.free_bits_zero hs
    acc_is_last_word := fun hs h0 => by
      obtain ⟨hact, hdir, heng⟩ := hs
      have hlen := hout hact
      have hptr := h.wptr_le_len hact heng
      have hcnt := h.loaded_before_counted heng hdir
      have hal := h.wptr_aligned
      refine (h.acc_is_last_word ⟨hact, hdir, heng⟩ h0).trans
        (Memory.readWord_congr fun x _ hx => (Memory.read_write_ne _ v ?_).symm)
      dsimp only at h0
      omega
    mem_wf := Memory.wf_write _ _ h.mem_wf
    mem_below := Memory.below_write _ h.mem_below ha }

/-- Every command keeps the invariants, however it ends. -/
theorem exec_keeps_inv {i : Instr} {s t : State} (hi : Invariants s) (h : exec i s = .next t) : Invariants t := by
  rcases exec_cases h with ⟨u, hu, rfl⟩ | ⟨c, n, hf, rfl⟩
  · exact (hu.keeps_inv hi).setStatusOk
  · exact hi.setStatusError hf.info_zero

/-- Every word written to CMD keeps the invariants, a command's or an ILLEGAL one. -/
theorem issue_keeps_inv {x : Word} {s t : State} (hi : Invariants s) (h : issue x s = .next t) : Invariants t := by
  cases hd : decode x with
  | ok i => rw [issue_of_decode s hd] at h; exact exec_keeps_inv hi h
  | error r =>
    rw [issue_of_illegal s hd] at h
    cases h
    exact hi.setStatusError fun _ => rfl

/-- Every register write keeps the invariants. -/
theorem writeRegister_keeps_inv {r : Nat} {v : Word} {s t : State} (hi : Invariants s)
    (h : writeRegister r v s = .next t) : Invariants t := by
  by_cases hr : r = 0
  · subst hr; exact issue_keeps_inv hi h
  · rw [writeRegister_of_ne_cmd hr] at h
    cases h
    exact hi.hostSide _ _ _

/-- All that a host byte write can answer as a next state (20_memory R52). -/
theorem hostWriteByte_next {a : Nat} {v : Byte} {s t : State} (h : hostWriteByte a v s = .next t) :
    a < s.cfg.bufMax ∧ (s.active = true → s.len.toNat ≤ a) ∧ t = { s with mem := Memory.write s.mem a v } := by
  unfold hostWriteByte at h
  split at h
  · cases h
  · next hlt =>
    split at h
    · cases h
    · next hout => cases h; exact ⟨Nat.not_le.mp hlt, fun hact => Nat.not_lt.mp fun hl => hout ⟨hact, hl⟩, rfl⟩

/-- All that a host byte read can answer as a next state (20_memory R52). -/
theorem hostReadByte_next {a : Nat} {s t : State} (h : hostReadByte a s = .next t) :
    a < s.cfg.bufMax ∧ t = reply (.byte (Memory.read s.mem a)) s := by
  unfold hostReadByte at h
  split at h
  · cases h
  · next hlt => cases h; exact ⟨Nat.not_le.mp hlt, rfl⟩

/-- Every move of the host keeps the invariants. -/
theorem hostMove_keeps_inv {m : HostMove} {s t : State} (hi : Invariants s) (h : hostMove m s = .next t) :
    Invariants t := by
  cases m with
  | writeReg r v => exact writeRegister_keeps_inv hi h
  | readReg r => cases h; exact hi.hostSide _ _ _
  | writeByte a v =>
    obtain ⟨ha, hout, rfl⟩ := hostWriteByte_next h
    exact hi.writeByte v ha hout
  | readByte a =>
    obtain ⟨-, rfl⟩ := hostReadByte_next h
    exact hi.hostSide _ _ _
  | reset => cases h; exact invariants_resetBlock hi.mem_wf hi.mem_below

/-- With no move to come a step changes nothing (log 3). -/
theorem step_of_idle {s : State} (h : s.pending = []) : step s = .next s := by rw [step, nextMove, h]

/-- Settles O18: a step waits or is one move of the host, and each keeps the invariants. -/
theorem stepKeepsInvariants : Obligations.StepKeepsInvariants := by
  intro s t hi h
  cases hp : s.pending with
  | nil => rw [step_of_idle hp] at h; cases h; exact hi
  | cons m rest => rw [step_of_pending hp] at h; exact hostMove_keeps_inv (hi.hostSide _ _ _) h

/-- Settles O17: the state after reset is what the reset input makes of an empty memory list. -/
theorem resetMeetsInvariants : Obligations.ResetMeetsInvariants :=
  invariants_resetBlock (s := State.reset) rfl rfl

/-! ### What a command changes (10_state R12, R19) -/

/-- Settles O26, by the branches of each command. -/
theorem commandsWriteOnlyTheirState : Obligations.CommandsWriteOnlyTheirState := by
  intro i s t h
  rcases exec_cases h with ⟨u, hu, rfl⟩ | ⟨c, n, -, rfl⟩
  · cases hu <;> rfl
  · cases i <;> rfl

/-- A word store moves the cursor on, to the end of the pending word at least (10_state R19). -/
theorem bitPos_le_afterStore {word acc free : Nat} {s : State} (hi : Invariants s) (hs : InSession .write .word s)
    (hroom : nextWordAddr s ≤ s.len.toNat) (hfree : free ≤ 32) : bitPos s ≤ bitPos (afterStore word acc free s) := by
  rw [bitPos_afterStore hi hs hroom hfree, bitPos_wordWrite hs.2.2 hs.2.1]
  omega

/-- No successful command of a live session moves the cursor back (10_state R19). -/
theorem Success.bitPos_le {i : Instr} {s t : State} (h : Success i s t) (hi : Invariants s) (ha : s.active = true) :
    bitPos s ≤ bitPos t := by
  cases i with
  | write w => rw [h.bitPos_add hi (.inl rfl)]; exact Nat.le_add_right _ _
  | read w => rw [h.bitPos_add hi (.inr rfl)]; exact Nat.le_add_right _ _
  | openSession d e => cases h with | openSession _ _ _ hidle _ => exact absurd (ha.symm.trans hidle) (by decide)
  | closeSession => cases h; exact Nat.le_refl _
  | extend => cases h; exact Nat.le_refl _
  | flush =>
    cases h with
    | flushEmpty => exact Nat.le_refl _
    | flushWord _ hs hw _ => exact bitPos_le_afterStore hi hs (flush_room hi hs hw) (Nat.le_refl _)

/-- Settles O31: a failure leaves the cursor, a success never moves it back. -/
theorem cursorNeverDecreases : Obligations.CursorNeverDecreases := by
  intro i s t hi ha h
  rcases exec_cases h with ⟨u, hu, rfl⟩ | ⟨c, n, -, rfl⟩
  · rw [bitPos_setStatusOk]; exact hu.bitPos_le hi ha
  · rw [bitPos_setStatusError]

/-! ### One step (10_state R11, R22) -/

/-- Settles O6: the move is a write to CMD, which issues the word. -/
theorem stepRunsDecodedCommand : Obligations.StepRunsDecodedCommand := by
  intro x i s rest hp hd
  rw [step_of_pending hp]
  exact issue_of_decode _ hd

/-- Settles O7: the fetched word is the next move (O6), and removing it gives the state back. -/
theorem fetchWordRunsNext : Obligations.FetchWordRunsNext := by
  intro x i s hd
  have hx : BitVec.ofNat 32 (x.toNat % 2 ^ 32) = x := by
    rw [Nat.mod_eq_of_lt x.isLt, BitVec.ofNat_toNat, BitVec.setWidth_eq]
  have hp := withFetchWord_pending s 32 x.toNat
  rw [hx] at hp
  exact stepRunsDecodedCommand x i _ _ hp hd

/-- Settles O8: with no move to take, the step is the block's wait. -/
theorem idleBlockWaits : Obligations.IdleBlockWaits := fun _ => step_of_idle

/-- Settles O11, by what every register number reads as. -/
theorem registerReadsGiveTable : Obligations.RegisterReadsGiveTable := by
  intro r s rest hp
  rw [step_of_pending hp, hostMove, readRegister_eq]
  rfl

/-- Settles O12, by what a register write other than to CMD does. -/
theorem registerWritesOtherThanCmd : Obligations.RegisterWritesOtherThanCmd := by
  intro r v s rest hp hr
  rw [step_of_pending hp]
  exact writeRegister_of_ne_cmd hr _ _

/-! ### Reset and STATUS (10_state R21, R29) -/

/-- Every register number reads 0 after reset (10_state R29). -/
theorem readRegister_reset (r : Nat) : readRegister r State.reset = 0#32 := by
  rw [readRegister_eq]
  split_ifs <;> rfl

/-- Settles O9: the reset values are the definition's own, and each byte and register number reads by its lemma. -/
theorem resetValues : Obligations.ResetValues :=
  ⟨rfl, rfl, rfl, rfl, rfl, rfl, rfl, rfl, rfl, rfl, rfl, rfl, rfl, rfl, Memory.read_nil, readRegister_reset⟩

/-- The STATUS word as the sum of its fields at their places (10_state R21). -/
theorem statusWord_toNat (s : State) : (statusWord s).toNat =
    (codeBits s.code).toNat + s.ewidth.toNat * 2 ^ 8 + s.active.toNat * 2 ^ 16 + (dirFlag s.dir).toNat * 2 ^ 17 +
      (engFlag s.eng).toNat * 2 ^ 18 := by
  simp only [statusWord, toNat_append_add, BitVec.toNat_ofNat, BitVec.toNat_ofBool]
  omega

/-- Settles O13: the fields add up, and each one-bit field is its flag. -/
theorem statusLayout : Obligations.StatusLayout := by
  intro s
  refine ⟨?_, rfl, rfl, rfl, rfl⟩
  have hactive : s.active.toNat * 2 ^ 16 = if s.active then 2 ^ 16 else 0 := by cases s.active <;> rfl
  have hdir : (dirFlag s.dir).toNat * 2 ^ 17 = if s.dir = .read then 2 ^ 17 else 0 := by cases s.dir <;> rfl
  have heng : (engFlag s.eng).toNat * 2 ^ 18 = if s.eng = .word then 2 ^ 18 else 0 := by cases s.eng <;> rfl
  rw [statusWord_toNat, hactive, hdir, heng]

end Sys2Proof.Machine
end

section
/-! SUPPORT. The buffer memory: the host's accesses to it (20_memory R52), what stops a step, what a command stores and
where (20_memory R41, R46, R53), and the word primitives (20_memory R43). -/

namespace Sys2Proof.Machine

/-! ### The word primitives (20_memory R43) -/

/-- A number beside another's bits is added with its weight. -/
theorem or_shiftLeft_eq_add {x k : Nat} (hx : x < 2 ^ k) (y : Nat) : x ||| y <<< k = x + y * 2 ^ k := by
  rw [Nat.or_comm, ← Nat.shiftLeft_add_eq_or_of_lt hx, Nat.shiftLeft_eq, Nat.add_comm]

/-- A word read is the sum of its four bytes, least significant first (20_memory R43). -/
theorem Memory.readWord_eq_sum (m : Memory) (a : Nat) : Memory.readWord m a =
    (Memory.read m a).toNat + (Memory.read m (a + 1)).toNat * 2 ^ 8 + (Memory.read m (a + 2)).toNat * 2 ^ 16 +
      (Memory.read m (a + 3)).toNat * 2 ^ 24 := by
  simp only [Memory.readWord, wordByteAddr_little, Nat.add_zero]
  have h0 := (Memory.read m a).isLt
  have h1 := (Memory.read m (a + 1)).isLt
  have h2 := (Memory.read m (a + 2)).isLt
  rw [or_shiftLeft_eq_add (k := 8) h0, or_shiftLeft_eq_add (k := 16) (by omega),
    or_shiftLeft_eq_add (k := 24) (by omega)]

/-- Each byte of a stored word is at its address (20_memory R43). -/
theorem Memory.read_writeWord_byte (m : Memory) (a : Nat) (v : Word) {i : Nat} (h : i < 4) :
    Memory.read (Memory.writeWord m a v) (a + i) = wordByte v i := by
  rw [Memory.read_writeWord, if_pos (by omega), Nat.add_sub_cancel_left]

/-- Settles O43, by the laws of the word read and the word store. -/
theorem wordMemoryIsLittleEndian : Obligations.WordMemoryIsLittleEndian := by
  intro m a v
  have hbyte := @Memory.read_writeWord_byte m a v
  exact ⟨Memory.readWord_eq_sum m a, hbyte (i := 0) (by decide), hbyte (i := 1) (by decide),
    hbyte (i := 2) (by decide), hbyte (i := 3) (by decide),
    fun x hx => Memory.read_writeWord_ne m v (by omega), Memory.readWord_writeWord m a v⟩

/-! ### The host's byte accesses (20_memory R52) -/

/-- A host byte write at or above BUF_MAX faults (log 7). -/
theorem hostWriteByte_of_ge {a : Nat} {s : State} (v : Byte) (h : s.cfg.bufMax ≤ a) :
    hostWriteByte a v s = .fault (.hostNoSuchByte a) := if_pos h

/-- A host byte write below LEN of a live session is refused (log 5). -/
theorem hostWriteByte_in_session {a : Nat} {s : State} (v : Byte) (h : a < s.cfg.bufMax) (hact : s.active = true)
    (hlen : a < s.len.toNat) : hostWriteByte a v s = .refused (.hostWriteInSession a) := by
  rw [hostWriteByte, if_neg (Nat.not_le.mpr h), if_pos ⟨hact, hlen⟩]

/-- Any other host byte write is done (20_memory R52). -/
theorem hostWriteByte_done {a : Nat} {s : State} (v : Byte) (h : a < s.cfg.bufMax)
    (hout : s.active = false ∨ s.len.toNat ≤ a) :
    hostWriteByte a v s = .next { s with mem := Memory.write s.mem a v } := by
  have hfree : ¬ (s.active = true ∧ a < s.len.toNat) := by
    rintro ⟨hact, hlen⟩
    rcases hout with hidle | hge
    · exact Bool.false_ne_true (hidle.symm.trans hact)
    · exact absurd hlen (Nat.not_lt.mpr hge)
  rw [hostWriteByte, if_neg (Nat.not_le.mpr h), if_neg hfree]

/-- A host byte read at or above BUF_MAX faults (log 7). -/
theorem hostReadByte_of_ge {a : Nat} {s : State} (h : s.cfg.bufMax ≤ a) :
    hostReadByte a s = .fault (.hostNoSuchByte a) := if_pos h

/-- A host byte read of a byte that exists is answered (20_memory R52). -/
theorem hostReadByte_of_lt {a : Nat} {s : State} (h : a < s.cfg.bufMax) :
    hostReadByte a s = .next (reply (.byte (Memory.read s.mem a)) s) := if_neg (Nat.not_le.mpr h)

/-- Settles O14: the three cases of the host's byte write. -/
theorem hostByteWriteOwnership : Obligations.HostByteWriteOwnership := by
  intro a v s rest hp
  rw [step_of_pending hp]
  exact ⟨fun ha => hostWriteByte_of_ge v ha, fun ha hact hlen => hostWriteByte_in_session v ha hact hlen,
    fun ha hout => hostWriteByte_done v ha hout⟩

/-- Settles O15: the write is done (O14), the read is answered, and a read after a write gives the value written. -/
theorem hostReadsBackWrittenByte : Obligations.HostReadsBackWrittenByte := by
  intro a b v s rest hp ha hb hout
  have hwrite := (hostByteWriteOwnership a v s _ hp).2.2 ha hout
  have hread := hostReadByte_of_lt (s := { s with pending := rest, mem := Memory.write s.mem a v }) hb
  rw [Memory.read_write] at hread
  exact ⟨_, _, hwrite, (step_of_pending (h := .readByte b) rfl).trans hread, rfl, rfl⟩

/-- Settles O16, by the kinds of moves that are left: none but a byte write touches the memory, and in a session that
one lies at LEN or above. -/
theorem hostMovesKeepSession : Obligations.HostMovesKeepSession := by
  intro m s t rest hp hact hcmd hreset h
  rw [step_of_pending hp] at h
  cases m with
  | writeReg r v =>
    have hr : r ≠ 0 := by rintro rfl; exact hcmd v rfl
    rw [hostMove, writeRegister_of_ne_cmd hr] at h
    cases h
    exact ⟨rfl, fun _ _ => rfl⟩
  | readReg r => cases h; exact ⟨rfl, fun _ _ => rfl⟩
  | writeByte a v =>
    obtain ⟨-, hout, rfl⟩ := hostWriteByte_next h
    have hge : s.len.toNat ≤ a := hout hact
    exact ⟨rfl, fun x hx => Memory.read_write_ne _ v (by omega)⟩
  | readByte a =>
    obtain ⟨-, rfl⟩ := hostReadByte_next h
    exact ⟨rfl, fun _ _ => rfl⟩
  | reset => exact absurd rfl hreset

/-! ### What stops a step (20_memory R52, R54, logs 5, 7) -/

/-- A WRITE that fits its session succeeds: every byte it touches exists (20_memory R41). -/
theorem Invariants.write_succeeds {w : Nat} {e : Engine} {s : State} (hi : Invariants s) (hs : InSession .write e s)
    (hf : Fits w s) : ∃ t, Success (.write w) s t := by
  cases e with
  | byte => exact ⟨_, .writeByte w s hs hf ((touchedEnd_le hs.2.2 hf).trans hi.len_le_bufMax)⟩
  | word =>
    have hroom (hw : s.acnt.toNat ≤ w) : nextWordAddr s ≤ s.cfg.bufMax :=
      (store_room hi hs hf hw).trans hi.len_le_bufMax
    rcases lt_trichotomy w s.acnt.toNat with hw | hw | hw
    · exact ⟨_, .writePending w s hs hf hw⟩
    · exact ⟨_, .writeFull w s hs hf hw (hroom hw.ge)⟩
    · exact ⟨_, .writeSplit w s hs hf hw (hroom hw.le)⟩

/-- A READ that fits its session succeeds (20_memory R41). -/
theorem Invariants.read_succeeds {w : Nat} {e : Engine} {s : State} (hi : Invariants s) (hs : InSession .read e s)
    (hf : Fits w s) : ∃ t, Success (.read w) s t := by
  cases e with
  | byte => exact ⟨_, .readByte w s hs hf ((touchedEnd_le hs.2.2 hf).trans hi.len_le_bufMax)⟩
  | word =>
    rcases Nat.lt_or_ge s.acnt.toNat w with hw | hw
    · exact ⟨_, .readLoad w s hs hf hw ((load_room hi hs hf hw).trans hi.len_le_bufMax)⟩
    · exact ⟨_, .readUnread w s hs hf hw⟩

/-- A FLUSH in its session succeeds (20_memory R41). -/
theorem Invariants.flush_succeeds {s : State} (hi : Invariants s) (hs : InSession .write .word s) :
    ∃ t, Success .flush s t := by
  by_cases hw : s.acnt.toNat = 32
  · exact ⟨_, .flushEmpty s hs hw⟩
  · exact ⟨_, .flushWord s hs hw ((flush_room hi hs hw).trans hi.len_le_bufMax)⟩

/-- Every command of a state that meets the invariants succeeds or fails: there is no third way (60_exceptions R148). -/
theorem Invariants.success_or_failure {s : State} (hi : Invariants s) (i : Instr) :
    (∃ t, Success i s t) ∨ ∃ c n, Failure i s c n := by
  cases hal : allowed i s with
  | false => exact .inr ⟨_, _, .wrongSession i s hal⟩
  | true =>
    cases i with
    | openSession d e =>
      have ha : s.active = false := by simpa [allowed] using hal
      by_cases hn : BadLength e (lengthOperand s) s
      · exact .inr ⟨_, _, .openLength d e s ha hn⟩
      · exact .inl ⟨_, .openSession d e s ha hn⟩
    | closeSession => exact .inl ⟨_, .closeSession s (by simpa [allowed] using hal)⟩
    | write w =>
      have hs : InSession .write s.eng s := by simpa [allowed, InSession] using hal
      by_cases hf : Fits w s
      · exact .inl (hi.write_succeeds hs hf)
      · exact .inr ⟨_, _, .writeWidth w _ s hs hf⟩
    | read w =>
      have hs : InSession .read s.eng s := by simpa [allowed, InSession] using hal
      by_cases hf : Fits w s
      · exact .inl (hi.read_succeeds hs hf)
      · exact .inr ⟨_, _, .readWidth w _ s hs hf⟩
    | flush => exact .inl (hi.flush_succeeds (by simpa [allowed, and_assoc] using hal))
    | extend =>
      have hs : InSession .write s.eng s := by simpa [allowed, InSession] using hal
      by_cases hn : lengthOperand s < s.len.toNat ∨ BadLength s.eng (lengthOperand s) s
      · exact .inr ⟨_, _, .extendLength _ s hs hn⟩
      · obtain ⟨hl, hb⟩ := not_or.mp hn
        exact .inl ⟨_, .extend _ s hs (Nat.not_lt.mp hl) hb⟩

/-- Every command of a state that meets the invariants completes (60_exceptions R148, 20_memory R54). -/
theorem Invariants.exec_completes {s : State} (hi : Invariants s) (i : Instr) : ∃ t, exec i s = .next t := by
  rcases hi.success_or_failure i with ⟨t, ht⟩ | ⟨c, n, hf⟩
  · exact ⟨_, exec_of_success ht⟩
  · exact ⟨_, exec_of_failure hf⟩

/-- Every register write completes, one to CMD too (10_state R22, 30_encoding R65). -/
theorem Invariants.writeRegister_completes {s : State} (hi : Invariants s) (r : Nat) (v : Word) :
    ∃ t, writeRegister r v s = .next t := by
  by_cases hr : r = 0
  · subst hr
    rw [writeRegister_cmd]
    cases hd : decode v with
    | ok i => rw [issue_of_decode s hd]; exact hi.exec_completes i
    | error e => exact ⟨_, issue_of_illegal s hd⟩
  · exact ⟨_, writeRegister_of_ne_cmd hr v s⟩

/-- A host move either goes on or is a byte access the spec gives the host none of (logs 5, 7). -/
theorem Invariants.hostMove_cases {s : State} (hi : Invariants s) (m : HostMove) :
    (∃ t, hostMove m s = .next t) ∨
    (∃ a, s.cfg.bufMax ≤ a ∧ hostMove m s = .fault (.hostNoSuchByte a) ∧
      (m = .readByte a ∨ ∃ v, m = .writeByte a v)) ∨
    ∃ a v, s.active = true ∧ a < s.len.toNat ∧ hostMove m s = .refused (.hostWriteInSession a) ∧
      m = .writeByte a v := by
  cases m with
  | writeReg r v => exact .inl (hi.writeRegister_completes r v)
  | readReg r => exact .inl ⟨_, rfl⟩
  | writeByte a v =>
    rcases Nat.lt_or_ge a s.cfg.bufMax with ha | ha
    · by_cases hlive : s.active = true ∧ a < s.len.toNat
      · obtain ⟨hact, hlen⟩ := hlive
        exact .inr (.inr ⟨a, v, hact, hlen, hostWriteByte_in_session v ha hact hlen, rfl⟩)
      · have hout : s.active = false ∨ s.len.toNat ≤ a := by
          rwa [not_and_or, Bool.not_eq_true, Nat.not_lt] at hlive
        exact .inl ⟨_, hostWriteByte_done v ha hout⟩
    · exact .inr (.inl ⟨a, ha, hostWriteByte_of_ge v ha, .inr ⟨v, rfl⟩⟩)
  | readByte a =>
    rcases Nat.lt_or_ge a s.cfg.bufMax with ha | ha
    · exact .inl ⟨_, hostReadByte_of_lt ha⟩
    · exact .inr (.inl ⟨a, ha, hostReadByte_of_ge ha, .inl rfl⟩)
  | reset => exact .inl ⟨_, rfl⟩

/-- Settles O21: a step waits or is one move of the host, and those that stop are listed. -/
theorem stepStopsOnHostBreachOnly : Obligations.StepStopsOnHostBreachOnly := by
  intro s hi
  cases hp : s.pending with
  | nil => simp [step_of_idle hp]
  | cons m rest =>
    rw [step_of_pending hp]
    rcases (hi.hostSide s.data rest s.replies).hostMove_cases m with
      ⟨t, ht⟩ | ⟨a, ha, ht, hm⟩ | ⟨a, v, hact, hlen, ht, rfl⟩
    · simp [ht]
    · refine ⟨fun f hf => ?_, by simp [ht]⟩
      cases ht.symm.trans hf
      rcases hm with rfl | ⟨v, rfl⟩
      · exact ⟨a, rest, ha, rfl, .inl rfl⟩
      · exact ⟨a, rest, ha, rfl, .inr ⟨v, rfl⟩⟩
    · refine ⟨by simp [ht], fun r hr => ?_⟩
      cases ht.symm.trans hr
      exact ⟨a, v, rest, rfl, hact, hlen, rfl⟩

/-! ### What a command stores, as a function of the memory alone (20_memory R46, R53) -/

/-- What a successful command does to the memory: nothing, the loop of a byte-cursor WRITE (40_byte_cursor R80), or one
word store at WPTR (41_word_accumulator R100, R106). `Success.stores` ties it to the model. -/
inductive Stores : Instr → State → (Memory → Memory) → Prop
  | nothing (i : Instr) (s : State) : Stores i s id
  | bytes (w : Nat) (s : State) (hs : InSession .write .byte s) (hf : Fits w s) :
      Stores (.write w) s (fun m => (packLoop w w (valueOperand w s) (cursor s) m).1)
  | word (i : Instr) (s : State) (v : Word) (hs : InSession .write .word s)
      (hroom : Invariants s → nextWordAddr s ≤ s.len.toNat) :
      Stores i s (fun m => Memory.writeWord m s.wptr.toNat v)

/-- WRITE's loop leaves every byte outside the touched bytes (20_memory R46, 40_byte_cursor R81). -/
theorem read_packLoop_of_untouched {w v a : Nat} {s : State} (m : Memory)
    (h : a < s.bidx.toNat ∨ touchedEnd w s ≤ a) :
    Memory.read (packLoop w w v (cursor s) m).1 a = Memory.read m a := by
  apply BitVec.eq_of_getLsbD_eq
  intro b hb
  have hout : ¬ ((cursor s).pos ≤ a * 8 + b ∧ a * 8 + b < (cursor s).pos + w) := by
    have hpos : (cursor s).pos = s.bidx.toNat * 8 + s.boff.toNat := rfl
    unfold touchedEnd at h
    split at h <;> omega
  rw [packLoop_bit w w v _ m (Nat.le_refl w) (cursor_off_lt s) a b hb, decide_eq_false hout, Bool.false_and,
    Bool.or_false]

/-- A byte outside the touched bytes and outside the word at WPTR is not stored to (20_memory R46). -/
theorem Stores.read_of_untouched {i : Instr} {s : State} {f : Memory → Memory} (h : Stores i s f) {a : Nat}
    (hbyte : InSession .write .byte s → a < s.bidx.toNat ∨ touchedEnd (widthOf i) s ≤ a)
    (hword : InSession .write .word s → a < s.wptr.toNat ∨ nextWordAddr s ≤ a) (m : Memory) :
    Memory.read (f m) a = Memory.read m a := by
  cases h with
  | nothing => rfl
  | bytes w _ hs hf => exact read_packLoop_of_untouched m (hbyte hs)
  | word _ _ v hs hroom =>
    have hout := hword hs
    simp only [nextWordAddr, wordBytes_eq] at hout
    exact Memory.read_writeWord_ne m v (by omega)

/-- No byte at LEN or above is stored to (20_memory R41). -/
theorem Stores.read_above {i : Instr} {s : State} {f : Memory → Memory} (h : Stores i s f) (hi : Invariants s)
    {a : Nat} (ha : s.len.toNat ≤ a) (m : Memory) : Memory.read (f m) a = Memory.read m a := by
  cases h with
  | nothing => rfl
  | bytes w _ hs hf => exact read_packLoop_of_untouched m (.inr ((touchedEnd_le hs.2.2 hf).trans ha))
  | word _ _ v hs hroom =>
    have hend : s.wptr.toNat + 4 ≤ s.len.toNat := hroom hi
    exact Memory.read_writeWord_ne m v (by omega)

/-- What a store leaves in a byte depends on no other byte. -/
theorem Stores.read_congr {i : Instr} {s : State} {f : Memory → Memory} (h : Stores i s f) {m m' : Memory} {a : Nat}
    (ha : Memory.read m a = Memory.read m' a) : Memory.read (f m) a = Memory.read (f m') a := by
  cases h with
  | nothing => exact ha
  | bytes w _ hs hf =>
    apply BitVec.eq_of_getLsbD_eq
    intro b hb
    rw [packLoop_bit w w _ _ m (Nat.le_refl w) (cursor_off_lt s) a b hb,
      packLoop_bit w w _ _ m' (Nat.le_refl w) (cursor_off_lt s) a b hb, ha]
  | word _ _ v hs hroom => rw [Memory.read_writeWord, Memory.read_writeWord, ha]

/-- A read session stores nothing (20_memory R53). -/
theorem Stores.eq_id_of_read {i : Instr} {s : State} {f : Memory → Memory} (h : Stores i s f) (hd : s.dir = .read) :
    f = id := by
  cases h with
  | nothing => rfl
  | bytes w _ hs hf => exact absurd (hd.symm.trans hs.2.1) (by decide)
  | word _ _ v hs hroom => exact absurd (hd.symm.trans hs.2.1) (by decide)

/-! ### A command between memories that agree below LEN (20_memory R41) -/

/-- The state WRITE's loop leaves from another memory differs in the memory alone: its counter reads no byte. -/
theorem afterPack_withMem (w : Nat) (s : State) (m : Memory) : afterPack w { s with mem := m } =
    { afterPack w s with mem := (packLoop w w (valueOperand w s) (cursor s) m).1 } := by
  have hc : (packLoop w w (valueOperand w s) (cursor s) m).2 =
      (packLoop w w (valueOperand w s) (cursor s) s.mem).2 := by
    rw [packLoop_cursor w w _ _ _ (Nat.le_refl w) (cursor_off_lt s),
      packLoop_cursor w w _ _ _ (Nat.le_refl w) (cursor_off_lt s)]
  change setCursor (packLoop w w (valueOperand w s) (cursor s) m).2 _ = _
  rw [hc]
  rfl

/-- The first bytes of the buffer as one number depend on those bytes alone. -/
theorem bufferNat_congr {m m' : Memory} {n : Nat} (h : ∀ a, a < n → Memory.read m a = Memory.read m' a) :
    bufferNat m n = bufferNat m' n := by
  induction n with
  | zero => rfl
  | succ n ih => rw [bufferNat, bufferNat, ih fun a ha => h a (by omega), h n (by omega)]

section
variable {s : State} {m : Memory} (hm : ∀ a, a < s.len.toNat → Memory.read m a = Memory.read s.mem a)
include hm

/-- A byte-cursor READ that fits reads bytes below LEN only (20_memory R41). -/
theorem afterUnpack_withMem {w : Nat} (he : s.eng = .byte) (hf : Fits w s) :
    afterUnpack w { s with mem := m } = { afterUnpack w s with mem := m } := by
  have hout : unpackLoop m w w 0 0 (cursor s) = unpackLoop s.mem w w 0 0 (cursor s) := by
    apply Prod.ext
    · rw [unpackLoop_bufferNat he hf, ← bufferNat_congr hm]
      exact unpackLoop_bufferNat (s := { s with mem := m }) he hf
    · rw [unpackLoop_cursor _ w w _ _ _ (Nat.le_refl w) (cursor_off_lt s),
        unpackLoop_cursor _ w w _ _ _ (Nat.le_refl w) (cursor_off_lt s)]
  change setCursor (unpackLoop m w w 0 0 (cursor s)).2
    { s with mem := m, result := BitVec.ofNat 32 (unpackLoop m w w 0 0 (cursor s)).1 } = _
  rw [hout]
  rfl

/-- A word load in the buffer reads bytes below LEN only (20_memory R41). -/
theorem afterLoad_withMem (w : Nat) (hroom : nextWordAddr s ≤ s.len.toNat) :
    afterLoad w { s with mem := m } = { afterLoad w s with mem := m } := by
  have hend : s.wptr.toNat + 4 ≤ s.len.toNat := hroom
  have hword : Memory.readWord m s.wptr.toNat = Memory.readWord s.mem s.wptr.toNat :=
    Memory.readWord_congr fun x _ hx => hm x (by omega)
  simp only [afterLoad, hword]
  rfl

end

/-- Every successful command stores in one of these ways, and from a memory that agrees below LEN it succeeds likewise:
the same registers, and the same store into that memory. -/
theorem Success.stores {i : Instr} {s t : State} (h : Success i s t) : ∃ f, Stores i s f ∧ t.mem = f s.mem ∧
    (Invariants s → ∀ m : Memory, (∀ a, a < s.len.toNat → Memory.read m a = Memory.read s.mem a) →
      Success i { s with mem := m } { t with mem := f m }) := by
  cases h with
  | openSession d e _ ha hn =>
    exact ⟨id, .nothing _ _, rfl, fun _ m _ => .openSession d e { s with mem := m } ha hn⟩
  | closeSession _ ha => exact ⟨id, .nothing _ _, rfl, fun _ m _ => .closeSession { s with mem := m } ha⟩
  | extend e _ hs hl hn => exact ⟨id, .nothing _ _, rfl, fun _ m _ => .extend e { s with mem := m } hs hl hn⟩
  | writeByte w _ hs hf hmem =>
    refine ⟨_, .bytes w s hs hf, rfl, fun _ m _ => ?_⟩
    rw [← afterPack_withMem]
    exact .writeByte w { s with mem := m } hs hf hmem
  | readByte w _ hs hf hmem =>
    refine ⟨id, .nothing _ _, rfl, fun _ m hm => ?_⟩
    rw [id, ← afterUnpack_withMem hm hs.2.2 hf]
    exact .readByte w { s with mem := m } hs hf hmem
  | writePending w _ hs hf hw =>
    exact ⟨id, .nothing _ _, rfl, fun _ m _ => .writePending w { s with mem := m } hs hf hw⟩
  | writeFull w _ hs hf hw hmem =>
    exact ⟨_, .word _ s _ hs fun hi => store_room hi hs hf hw.ge, rfl,
      fun _ m _ => .writeFull w { s with mem := m } hs hf hw hmem⟩
  | writeSplit w _ hs hf hw hmem =>
    exact ⟨_, .word _ s _ hs fun hi => store_room hi hs hf hw.le, rfl,
      fun _ m _ => .writeSplit w { s with mem := m } hs hf hw hmem⟩
  | readUnread w _ hs hf hw =>
    exact ⟨id, .nothing _ _, rfl, fun _ m _ => .readUnread w { s with mem := m } hs hf hw⟩
  | readLoad w _ hs hf hw hmem =>
    refine ⟨id, .nothing _ _, rfl, fun hi m hm => ?_⟩
    rw [id, ← afterLoad_withMem hm w (load_room hi hs hf hw)]
    exact .readLoad w { s with mem := m } hs hf hw hmem
  | flushEmpty _ hs hw => exact ⟨id, .nothing _ _, rfl, fun _ m _ => .flushEmpty { s with mem := m } hs hw⟩
  | flushWord _ hs hw hmem =>
    exact ⟨_, .word _ s _ hs fun hi => flush_room hi hs hw, rfl,
      fun _ m _ => .flushWord { s with mem := m } hs hw hmem⟩

/-- A failure reads no byte of the buffer. -/
theorem Failure.withMem {i : Instr} {s : State} {c : StatusCode} {n : Nat} (h : Failure i s c n) (m : Memory) :
    Failure i { s with mem := m } c n := by
  cases h with
  | wrongSession _ _ h => exact .wrongSession i _ (by cases i <;> exact h)
  | openLength d e _ ha hn => exact .openLength d e { s with mem := m } ha hn
  | extendLength e _ hs hn => exact .extendLength e { s with mem := m } hs hn
  | writeWidth _ e _ hs hf => exact .writeWidth _ e { s with mem := m } hs hf
  | readWidth _ e _ hs hf => exact .readWidth _ e { s with mem := m } hs hf

/-- Every command's next state, a failure's too, holds the memory of such a store. -/
theorem exec_stores {i : Instr} {s t : State} (h : exec i s = .next t) : ∃ f, Stores i s f ∧ t.mem = f s.mem ∧
    (Invariants s → ∀ m : Memory, (∀ a, a < s.len.toNat → Memory.read m a = Memory.read s.mem a) →
      exec i { s with mem := m } = .next { t with mem := f m }) := by
  rcases exec_cases h with ⟨u, hu, rfl⟩ | ⟨c, n, hf, rfl⟩
  · obtain ⟨f, hst, hmem, hother⟩ := hu.stores
    exact ⟨f, hst, hmem, fun hi m hm => exec_of_success (hother hi m hm)⟩
  · exact ⟨id, .nothing i s, rfl, fun _ m _ => exec_of_failure (hf.withMem m)⟩

/-! ### The statements about a command and the memory (20_memory R41, R46, R53) -/

/-- Settles O27, by the ways a command stores. -/
theorem storesOnlyAtTheCursor : Obligations.StoresOnlyAtTheCursor := by
  intro i s t a h hbyte hword
  obtain ⟨f, hst, hmem, -⟩ := exec_stores h
  rw [hmem]
  exact hst.read_of_untouched hbyte hword s.mem

/-- Settles O28: both stores need a write session. -/
theorem readSessionNeverWritesBuffer : Obligations.ReadSessionNeverWritesBuffer := by
  intro i s t _ hd h
  obtain ⟨f, hst, hmem, -⟩ := exec_stores h
  rw [hmem, hst.eq_id_of_read hd, id]

/-- Settles O29: every store lies below LEN. -/
theorem bytesAboveLenUntouched : Obligations.BytesAboveLenUntouched := by
  intro i s t a hi h ha
  obtain ⟨f, hst, hmem, -⟩ := exec_stores h
  rw [hmem]
  exact hst.read_above hi ha s.mem

/-- Settles O30: the other run makes the same store into the other memory, and a store treats each byte alone. -/
theorem outcomeIgnoresBytesAboveLen : Obligations.OutcomeIgnoresBytesAboveLen := by
  intro i s t m hi hm h
  obtain ⟨f, hst, hmem, hother⟩ := exec_stores h
  refine ⟨_, hother hi m hm, rfl, fun a ha => ?_, fun a ha => hst.read_above hi ha m⟩
  rw [hmem]
  exact hst.read_congr (hm a ha)

end Sys2Proof.Machine
end

section
/-! SUPPORT. The command words: the decoder against the rows of the opcode map, in both directions (30_encoding R64, R65),
and what the block does with a word or a command it does not run (30_encoding R66, R67). -/

namespace Sys2Proof

/-! ### The row of a command (30_encoding R64) -/

/-- The word's fixed bits are the command's match, and its free bits hold the command's operands (30_encoding R64). -/
def MatchesRow (x : Word) : Instr → Prop
  | .openSession d e => x &&& 0xFFFFFFCF#32 = 0x00000001#32 ∧ d = dirField x ∧ e = engField x
  | .closeSession => x = 0x00000002#32
  | .write w => x &&& 0xFFFFC0FF#32 = 0x00000003#32 ∧ w = widthField x
  | .read w => x &&& 0xFFFFC0FF#32 = 0x00000004#32 ∧ w = widthField x
  | .flush => x = 0x00000005#32
  | .extend => x = 0x00000006#32

/-- The decoder answers a command exactly when the word matches the command's row. -/
theorem decode_eq_ok_iff (x : Word) (i : Instr) : decode x = .ok i ↔ MatchesRow x i := by
  constructor
  · intro hd
    rcases decode_cases x with ⟨h, hx⟩ | ⟨h, hx⟩ | ⟨h, hx⟩ | ⟨h, hx⟩ | ⟨h, hx⟩ | ⟨h, hx⟩ | ⟨-, -, -, -, -, -, hx⟩ <;>
      cases hx.symm.trans hd
    · exact ⟨h, rfl, rfl⟩
    · exact h
    · exact ⟨h, rfl⟩
    · exact ⟨h, rfl⟩
    · exact h
    · exact h
  · intro hm
    cases i with
    | openSession d e => obtain ⟨h, rfl, rfl⟩ := hm; exact decode_open h
    | closeSession => cases hm; rfl
    | write w => obtain ⟨h, rfl⟩ := hm; exact decode_write h
    | read w => obtain ⟨h, rfl⟩ := hm; exact decode_read h
    | flush => cases hm; rfl
    | extend => cases hm; rfl

/-- A word that matches no command's row is ILLEGAL (30_encoding R65). -/
theorem decode_error_of_no_row {x : Word} (h : ∀ i, ¬ MatchesRow x i) : ∃ r, decode x = .error r := by
  cases hd : decode x with
  | ok i => exact absurd ((decode_eq_ok_iff x i).mp hd) (h i)
  | error r => exact ⟨r, rfl⟩

/-! ### From the word to the command and back (30_encoding R61, R65) -/

/-- A command whose row a word matches has an encoding, and the word is it. -/
theorem MatchesRow.encode_eq {x : Word} {i : Instr} (h : MatchesRow x i) : i.WellFormed ∧ encode i = x := by
  cases i with
  | openSession d e => obtain ⟨h, rfl, rfl⟩ := h; exact ⟨rfl, (word_of_openRow h).symm⟩
  | closeSession => exact ⟨rfl, h.symm⟩
  | write w => obtain ⟨h, rfl⟩ := h; exact ⟨(wellFormed_write _).mpr (widthField_lt x), (word_of_row h).symm⟩
  | read w => obtain ⟨h, rfl⟩ := h; exact ⟨(wellFormed_read _).mpr (widthField_lt x), (word_of_row h).symm⟩
  | flush => exact ⟨rfl, h.symm⟩
  | extend => exact ⟨rfl, h.symm⟩

/-- A width of six bits stands in the free bits of its row only. -/
theorem widthBits_and_mask {w : Nat} (hw : w < 64) : widthBits w &&& 0xFFFFC0FF#32 = 0#32 := by
  apply BitVec.eq_of_getLsbD_eq
  intro i hi
  rw [BitVec.getLsbD_and, BitVec.getLsbD_zero, Bool.and_eq_false_iff]
  rcases Nat.lt_or_ge i 8 with hbelow | h8
  · exact .inl (by simp [widthBits, hbelow])
  rcases Nat.lt_or_ge i 14 with h14 | habove
  · exact .inr (by interval_cases i <;> rfl)
  · have hbit : w.testBit (i - 8) = false :=
      Nat.testBit_lt_two_pow (hw.trans_le (Nat.pow_le_pow_right (n := 2) (i := 6) Nat.two_pos (by omega)))
    exact .inl (by simp [widthBits, BitVec.getLsbD_ofNat, hbit])

/-- Fixed bits beside a width are what the row's mask leaves. -/
theorem or_widthBits_and_mask {w : Nat} (hw : w < 64) {c : Word} (hc : c &&& 0xFFFFC0FF#32 = c) :
    (c ||| widthBits w) &&& 0xFFFFC0FF#32 = c := by
  rw [BitVec.and_or_distrib_right, hc, widthBits_and_mask hw, BitVec.or_zero]

/-- The width is read back from beside fixed bits below it (30_encoding R62). -/
theorem widthField_or_widthBits {w : Nat} (hw : w < 64) {c : Word} (hc : c.toNat < 2 ^ 8) :
    widthField (c ||| widthBits w) = w := by
  have hbits : (widthBits w).toNat = w <<< 8 := by
    simp only [widthBits, BitVec.toNat_shiftLeft, BitVec.toNat_ofNat, Nat.shiftLeft_eq]
    omega
  rw [widthField_eq, BitVec.toNat_or, hbits, Machine.or_shiftLeft_eq_add hc]
  omega

/-- The word of a command that has an encoding matches the command's row. -/
theorem matchesRow_encode {i : Instr} (h : i.WellFormed) : MatchesRow (encode i) i := by
  cases i with
  | openSession d e => cases d <;> cases e <;> exact ⟨rfl, rfl, rfl⟩
  | closeSession => rfl
  | write w =>
    have hw := (wellFormed_write w).mp h
    exact ⟨or_widthBits_and_mask hw rfl, (widthField_or_widthBits hw (by decide)).symm⟩
  | read w =>
    have hw := (wellFormed_read w).mp h
    exact ⟨or_widthBits_and_mask hw rfl, (widthField_or_widthBits hw (by decide)).symm⟩
  | flush => rfl
  | extend => rfl

/-! ### Reserved opcodes (30_encoding R64, R67) -/

/-- Every command's word carries the command's opcode. -/
theorem opField_encode (i : Instr) : opField (encode i) = opcodeOf i := by
  cases i with
  | openSession d e => exact Laws.Opcode.openSession d e
  | closeSession => exact Laws.Opcode.closeSession
  | write w => exact Laws.Opcode.write w
  | read w => exact Laws.Opcode.read w
  | flush => exact Laws.Opcode.flush
  | extend => exact Laws.Opcode.extend

/-- No command's opcode is reserved. -/
theorem opcodeOf_not_reserved (i : Instr) : 1 ≤ (opcodeOf i).toNat ∧ (opcodeOf i).toNat < 7 := by
  cases i <;> simp [opcodeOf]

/-- A word with a reserved opcode matches no row. -/
theorem no_row_of_reserved {x : Word} (h : x.toNat % 16 = 0 ∨ 7 ≤ x.toNat % 16) (i : Instr) : ¬ MatchesRow x i := by
  intro hm
  obtain ⟨-, rfl⟩ := hm.encode_eq
  have hop : (encode i).toNat % 16 = (opcodeOf i).toNat := by
    rw [← opField_encode, opField, BitVec.extractLsb'_toNat]
    rfl
  have := opcodeOf_not_reserved i
  omega

namespace Machine

/-- A word of no row, issued, raises E_CMD (30_encoding R65, R67). -/
theorem issue_of_no_row {x : Word} (h : ∀ i, ¬ MatchesRow x i) (s : State) :
    issue x s = .next { s with code := .eCmd, ewidth := 0#6 } := by
  obtain ⟨r, hr⟩ := decode_error_of_no_row h
  exact issue_of_illegal s hr

end Machine

/-! ### The statements about the encoding -/

/-- Settles O1: the command's word matches the command's row. -/
theorem decodeOfEncode : Obligations.DecodeOfEncode := fun i h =>
  (decode_eq_ok_iff _ i).mpr (matchesRow_encode h)

/-- Settles O2: each row is `MatchesRow` of its command, and a reserved opcode is in no row. -/
theorem decodeFollowsMaskAndMatch : Obligations.DecodeFollowsMaskAndMatch := by
  intro x
  have hall : x &&& 0xFFFFFFFF#32 = x := BitVec.and_allOnes
  rw [hall]
  refine ⟨fun d e => decode_eq_ok_iff x _, decode_eq_ok_iff x _, fun w => ?_, fun w => ?_, decode_eq_ok_iff x _,
    decode_eq_ok_iff x _, fun hr => ?_⟩
  · rw [← widthField_eq]; exact decode_eq_ok_iff x _
  · rw [← widthField_eq]; exact decode_eq_ok_iff x _
  · exact ⟨decode_error_of_no_row (no_row_of_reserved hr), Machine.issue_of_no_row (no_row_of_reserved hr)⟩

/-- Settles O3: a word that matches a command's row is the command's encoding. -/
theorem decodedCommandIsCanonical : Obligations.DecodedCommandIsCanonical := fun x i hd =>
  ((decode_eq_ok_iff x i).mp hd).encode_eq

/-- Settles O4: the move is a write to CMD, which issues a word of no row. -/
theorem illegalWordRaisesECmd : Obligations.IllegalWordRaisesECmd := by
  intro x s rest hp hopen hclose hwrite hread hflush hextend
  have hrow : ∀ i, ¬ MatchesRow x i
    | .openSession _ _, hm => hopen hm.1
    | .closeSession, hm => hclose hm
    | .write _, hm => hwrite hm.1
    | .read _, hm => hread hm.1
    | .flush, hm => hflush hm
    | .extend, hm => hextend hm
  rw [Machine.step_of_pending hp]
  exact Machine.issue_of_no_row hrow _

/-- Settles O23: `exec_not_allowed`, whose STATUS update writes E_CMD and EWIDTH 0 and nothing else. -/
theorem wrongSessionRaisesECmd : Obligations.WrongSessionRaisesECmd := fun _ _ => Machine.exec_not_allowed

/-- Settles O5: each word of the syntax table is its command's encoding (O1); bit 14 is in no row. -/
theorem specWordsDecode : Obligations.SpecWordsDecode :=
  ⟨decodeOfEncode (.openSession .write .byte) rfl, decodeOfEncode (.openSession .read .byte) rfl,
    decodeOfEncode (.openSession .write .word) rfl, decodeOfEncode (.openSession .read .word) rfl,
    decodeOfEncode .closeSession rfl, decodeOfEncode (.write 10) rfl, decodeOfEncode (.read 32) rfl,
    decodeOfEncode .flush rfl, decodeOfEncode .extend rfl, decodeOfEncode (.write 63) rfl, .nonzeroUnusedField, rfl⟩

end Sys2Proof
end

section
/-! SUPPORT. The byte-cursor engine's WRITE and READ as moves along the buffer's bit stream (40_byte_cursor R81, R82, R85),
the round trip of a list of values (40_byte_cursor R86), and what both engines' transfers share: masking and the boundary
(40_byte_cursor R87, 41_word_accumulator R110). -/

namespace Sys2Proof.Machine

/-! ### The stream laws (40_byte_cursor R81, R85) -/

/-- A request that fits ends at a position the counter's registers can hold (00_scope R6, 10_state R16). -/
theorem end_lt_of_fits {w : Nat} {s : State} (hf : Fits w s) (hlen : s.len.toNat ≤ s.cfg.bufMax) :
    bitPos s + w < 2 ^ 32 := by
  have hcap := hf.2
  have hmax := bufMax_le s.cfg
  rw [capacity_eq] at hcap
  omega

/-- The counter set to a stream position stands at that position (10_state R16, R19). -/
theorem bitPos_of_counter {t : State} {p : Nat} (hp : p < 2 ^ 32) (he : t.eng = .byte)
    (hidx : t.bidx = BitVec.ofNat 29 (p / 8)) (hoff : t.boff = BitVec.ofNat 3 (p % 8)) : bitPos t = p := by
  simp only [bitPos_byte he, cursor, Cursor.pos, hidx, hoff, BitVec.toNat_ofNat]
  omega

/-- WRITE's loop changes the memory and moves the counter on by the width, nothing else (40_byte_cursor R81). -/
theorem afterPack_eq {w : Nat} {s : State} (he : s.eng = .byte) : afterPack w s = { s with
    mem := (afterPack w s).mem
    bidx := BitVec.ofNat 29 ((bitPos s + w) / 8)
    boff := BitVec.ofNat 3 ((bitPos s + w) % 8) } := by
  obtain ⟨hidx, hoff⟩ := afterPack_cursor (w := w) he
  rw [← hidx, ← hoff]
  rfl

/-- READ's loop puts the stream's next bits into RESULT and moves the counter on, nothing else (40_byte_cursor R85). -/
theorem afterUnpack_eq {w : Nat} {s : State} (he : s.eng = .byte) (hf : Fits w s) : afterUnpack w s = { s with
    result := BitVec.ofNat 32 ((bufferNat s.mem s.len.toNat >>> bitPos s) &&& mask w)
    bidx := BitVec.ofNat 29 ((bitPos s + w) / 8)
    boff := BitVec.ofNat 3 ((bitPos s + w) % 8) } := by
  obtain ⟨hidx, hoff⟩ := afterUnpack_cursor (w := w) he
  rw [← hidx, ← hoff, ← unpackLoop_bufferNat he hf]
  rfl

/-- A byte that no bit of the request lies in is not touched (20_memory R46, 40_byte_cursor R81). -/
theorem untouched_of_outside {w a : Nat} {s : State} (he : s.eng = .byte)
    (h : w = 0 ∨ a < bitPos s / 8 ∨ (bitPos s + w - 1) / 8 < a) : a < s.bidx.toNat ∨ touchedEnd w s ≤ a := by
  have hpos : bitPos s = s.bidx.toNat * 8 + s.boff.toNat := bitPos_byte he
  have hoff := s.boff.isLt
  unfold touchedEnd
  split <;> omega

/-- Settles O36: the one successful branch of WRITE, whose loop ORs the value in at the cursor. -/
theorem byteWriteStreamLaw : Obligations.ByteWriteStreamLaw := by
  intro w s hs hf hlen
  have he := hs.2.2
  obtain ⟨hidx, hoff⟩ := afterPack_cursor (w := w) he
  refine ⟨setStatusOk (afterPack w s), exec_of_success (.writeByte w s hs hf ((touchedEnd_le he hf).trans hlen)),
    congrArg setStatusOk (afterPack_eq he), bufferNat_afterPack he hf, ?_, fun a ha => ?_⟩
  · exact bitPos_of_counter (end_lt_of_fits hf hlen) he hidx hoff
  · exact read_packLoop_of_untouched s.mem (untouched_of_outside he ha)

/-- Settles O38: the one successful branch of READ, whose loop assembles the bits at the cursor. -/
theorem byteReadStreamLaw : Obligations.ByteReadStreamLaw := by
  intro w s hs hf hlen
  have he := hs.2.2
  obtain ⟨hidx, hoff⟩ := afterUnpack_cursor (w := w) he
  have hresult : (bufferNat s.mem s.len.toNat >>> bitPos s) &&& mask w < 2 ^ 32 := by
    rw [and_mask]
    exact mod_lt_of_lt (Nat.mod_lt _ (Nat.two_pow_pos w)) hf.1
  refine ⟨setStatusOk (afterUnpack w s), exec_of_success (.readByte w s hs hf ((touchedEnd_le he hf).trans hlen)),
    congrArg setStatusOk (afterUnpack_eq he hf), ?_, ?_⟩
  · rw [setStatusOk_result, afterUnpack_result, unpackLoop_bufferNat he hf, toNat_ofNat32 hresult]
  · exact bitPos_of_counter (end_lt_of_fits hf hlen) he hidx hoff

/-! ### WRITE only sets bits (40_byte_cursor R82) -/

/-- What a byte-cursor write session stores clears no bit. -/
theorem Stores.keeps_set_bit {i : Instr} {s : State} {f : Memory → Memory} (h : Stores i s f) (he : s.eng = .byte)
    {m : Memory} {a b : Nat} (hbit : (Memory.read m a).getLsbD b = true) : (Memory.read (f m) a).getLsbD b = true := by
  cases h with
  | nothing => exact hbit
  | bytes w _ hs hf =>
    rw [packLoop_bit w w _ _ m (Nat.le_refl w) (cursor_off_lt s) a b (BitVec.lt_of_getLsbD hbit), hbit, Bool.true_or]
  | word _ _ v hs hroom => exact absurd (he.symm.trans hs.2.2) (by decide)

/-- Settles O37, by the ways a command stores; a WRITE that fails stores nothing. -/
theorem byteWriteOnlySetsBits : Obligations.ByteWriteOnlySetsBits := by
  intro w s t a b hs h hbit
  obtain ⟨f, hst, hmem, -⟩ := exec_stores h
  rw [hmem]
  exact hst.keeps_set_bit hs.2.2 hbit

/-! ### The round trip (40_byte_cursor R86) -/

/-- Values laid side by side in a bit stream, the first lowest, each masked to its width. `writeAll_byte` ties it to
WRITE. -/
def packedNat : List (Word × Nat) → Nat
  | [] => 0
  | (v, w) :: rest => (v.toNat &&& mask w) ||| (packedNat rest <<< w)

/-- The values of these widths a bit stream starts with. `readAll_byte` ties it to READ. -/
def unpackedWords : List Nat → Nat → List Word
  | [], _ => []
  | w :: rest, b => BitVec.ofNat 32 (b &&& mask w) :: unpackedWords rest (b >>> w)

/-- Unpacking with the same widths gives back the masked values. -/
theorem unpackedWords_packedNat (items : List (Word × Nat)) :
    unpackedWords (items.map Prod.snd) (packedNat items) =
      items.map fun x => BitVec.ofNat 32 (x.1.toNat &&& mask x.2) := by
  induction items with
  | nil => rfl
  | cons x rest ih =>
    obtain ⟨v, w⟩ := x
    have hlt : v.toNat % 2 ^ w < 2 ^ w := Nat.mod_lt _ (Nat.two_pow_pos w)
    have hsum : packedNat ((v, w) :: rest) = v.toNat % 2 ^ w + packedNat rest * 2 ^ w := by
      rw [packedNat, and_mask, or_shiftLeft_eq_add hlt]
    have hhead : packedNat ((v, w) :: rest) &&& mask w = v.toNat &&& mask w := by
      rw [hsum, and_mask, and_mask, Nat.add_mul_mod_self_right, Nat.mod_mod]
    have htail : packedNat ((v, w) :: rest) >>> w = packedNat rest := by
      rw [hsum, Nat.shiftRight_eq_div_pow, Nat.add_mul_div_right _ _ (Nat.two_pow_pos w), Nat.div_eq_of_lt hlt,
        Nat.zero_add]
    rw [List.map_cons, List.map_cons, unpackedWords, hhead, htail, ih]

/-- A buffer of zero bytes is the number 0. -/
theorem bufferNat_eq_zero {m : Memory} {n : Nat} (h : ∀ a, a < n → Memory.read m a = 0#8) : bufferNat m n = 0 := by
  induction n with
  | zero => rfl
  | succ n ih => rw [bufferNat, ih fun a ha => h a (by omega), h n (by omega)]; simp

/-- A byte-cursor session takes every length that exists (42_session_control R122). -/
theorem not_badLength_byte {n : Nat} {s : State} (hn : n ≤ s.cfg.bufMax) : ¬ BadLength .byte n s := by
  rintro (hlong | ⟨heng, -⟩)
  · exact absurd hn (Nat.not_le.mpr hlong)
  · cases heng

/-- OPEN from an idle block with a length that will do starts a session at position 0 over the memory as it is
(42_session_control R120). -/
theorem runOk_openSession {d : Dir} {e : Engine} {n : Word} {s : State} (hi : Invariants s) (ha : s.active = false)
    (hn : ¬ BadLength e n.toNat s) : ∃ t, runOk (.openSession d e) n s = some t ∧ Invariants t ∧ InSession d e t ∧
      t.len = n ∧ bitPos t = 0 ∧ t.mem = s.mem ∧ t.cfg = s.cfg := by
  have hx := exec_of_success (.openSession d e { s with data := n } ha hn)
  refine ⟨_, okNext_eq_some.mpr ⟨hx, rfl⟩, exec_keeps_inv (hi.hostSide n _ _) hx, ⟨rfl, rfl, rfl⟩, ?_, ?_, rfl, rfl⟩
  · exact BitVec.eq_of_toNat_eq (lengthOperand_toNat _)
  · cases d <;> cases e <;> rfl

/-- WRITEs that fit all complete with OK and OR their values into the stream at the cursor (40_byte_cursor R81, R86). -/
theorem writeAll_byte (items : List (Word × Nat)) : ∀ {s : State}, Invariants s → InSession .write .byte s →
    (∀ x ∈ items, x.2 ≤ 32) → bitPos s + (items.map Prod.snd).sum ≤ s.len.toNat * 8 →
    ∃ t, writeAll items s = some t ∧ Invariants t ∧ t.active = true ∧ t.cfg = s.cfg ∧
      bufferNat t.mem s.len.toNat = bufferNat s.mem s.len.toNat ||| (packedNat items <<< bitPos s) := by
  induction items with
  | nil => intro s hi hs _ _; exact ⟨s, rfl, hi, hs.1, rfl, by simp [packedNat]⟩
  | cons x rest ih =>
    intro s hi hs hwidth hfit
    obtain ⟨v, w⟩ := x
    simp only [List.map_cons, List.sum_cons] at hfit
    have hroom : bitPos s + w ≤ s.len.toNat * 8 := by omega
    have hf : Fits w { s with data := v } := ⟨hwidth (v, w) List.mem_cons_self, hroom⟩
    obtain ⟨u, hx, hu, hbuf, hpos, -⟩ := byteWriteStreamLaw w { s with data := v } hs hf hi.len_le_bufMax
    have hpos : bitPos u = bitPos s + w := hpos
    have hsu : InSession .write .byte u := by rw [hu]; exact hs
    have hlen : u.len = s.len := by rw [hu]
    have hcfg : u.cfg = s.cfg := by rw [hu]
    obtain ⟨t, ht, hit, hact, hcfgt, hbuft⟩ := ih (exec_keeps_inv (hi.hostSide v _ _) hx) hsu
      (fun y hy => hwidth y (List.mem_cons_of_mem _ hy)) (by rw [hpos, hlen]; omega)
    have hok : runOk (.write w) v s = some u := okNext_eq_some.mpr ⟨hx, by rw [hu]⟩
    refine ⟨t, ?_, hit, hact, hcfgt.trans hcfg, ?_⟩
    · rw [writeAll, hok]
      exact ht
    · rw [hlen, hpos, hbuf] at hbuft
      rw [hbuft, packedNat, Nat.or_assoc, Nat.shiftLeft_or_distrib, Nat.add_comm, Nat.shiftLeft_add]
      rfl

/-- READs that fit all complete with OK and give the stream's next values (40_byte_cursor R85, R86). -/
theorem readAll_byte (ws : List Nat) : ∀ {s : State}, Invariants s → InSession .read .byte s → (∀ w ∈ ws, w ≤ 32) →
    bitPos s + ws.sum ≤ s.len.toNat * 8 →
    ∃ t, readAll ws s = some (unpackedWords ws (bufferNat s.mem s.len.toNat >>> bitPos s), t) := by
  induction ws with
  | nil => intro s _ _ _ _; exact ⟨s, rfl⟩
  | cons w rest ih =>
    intro s hi hs hwidth hfit
    rw [List.sum_cons] at hfit
    have hroom : bitPos s + w ≤ s.len.toNat * 8 := by omega
    have hf : Fits w s := ⟨hwidth w List.mem_cons_self, hroom⟩
    obtain ⟨u, hx, hu, -, hpos⟩ := byteReadStreamLaw w s hs hf hi.len_le_bufMax
    have hsu : InSession .read .byte u := by rw [hu]; exact hs
    have hlen : u.len = s.len := by rw [hu]
    have hmem : u.mem = s.mem := by rw [hu]
    have hresult : u.result = BitVec.ofNat 32 ((bufferNat s.mem s.len.toNat >>> bitPos s) &&& mask w) := by rw [hu]
    obtain ⟨t, ht⟩ := ih (exec_keeps_inv hi hx) hsu (fun y hy => hwidth y (List.mem_cons_of_mem _ hy))
      (by rw [hpos, hlen]; omega)
    rw [hlen, hmem, hpos, Nat.shiftRight_add] at ht
    have hok : okNext (exec (.read w) s) = some u := okNext_eq_some.mpr ⟨hx, by rw [hu]⟩
    refine ⟨t, ?_⟩
    rw [readAll, hok, Option.bind_some, ht, Option.map_some, hresult, unpackedWords]

/-- Settles O39: the WRITEs leave the packed values as the buffer's number, and the READs unpack that number. -/
theorem byteRoundTrip : Obligations.ByteRoundTrip := by
  intro items n s hi ha hn hwidth hfit hzero
  obtain ⟨s1, h1, hi1, hs1, hlen1, hpos1, hmem1, hcfg1⟩ := runOk_openSession (d := .write) hi ha
    (not_badLength_byte hn)
  obtain ⟨s2, h2, hi2, hact2, hcfg2, hbuf⟩ := writeAll_byte items hi1 hs1 hwidth (by rw [hpos1, hlen1]; omega)
  rw [hlen1, hpos1, hmem1, bufferNat_eq_zero hzero, Nat.zero_or, Nat.shiftLeft_zero] at hbuf
  have hclose := exec_of_success (.closeSession s2 hact2)
  obtain ⟨s4, h4, hi4, hs4, hlen4, hpos4, hmem4, -⟩ := runOk_openSession (d := .read) (exec_keeps_inv hi2 hclose) rfl
    (not_badLength_byte (by rw [← hcfg1, ← hcfg2] at hn; exact hn))
  obtain ⟨t, ht⟩ := readAll_byte (items.map Prod.snd) hi4 hs4 (List.forall_mem_map.mpr hwidth)
    (by rw [hpos4, hlen4]; omega)
  refine ⟨s1, s2, _, s4, _, h1, h2, okNext_eq_some.mpr ⟨hclose, rfl⟩, h4, ht, ?_⟩
  have hbuf4 : bufferNat s4.mem s4.len.toNat = packedNat items := by rw [hmem4, hlen4]; exact hbuf
  rw [hbuf4, hpos4]
  exact unpackedWords_packedNat items

/-! ### Masking (40_byte_cursor R87, 41_word_accumulator R110) -/

section
variable {w : Nat} {s : State} {v : Word} (hv : v.toNat % 2 ^ w = s.data.toNat % 2 ^ w)
include hv

/-- WRITE's value is the low bits of DATA alone (30_encoding R63). -/
theorem valueOperand_withData : valueOperand w { s with data := v } = valueOperand w s := by
  rw [valueOperand_eq, valueOperand_eq, ← hv]

/-- The state WRITE's loop leaves keeps the DATA it was given, and depends on its low bits alone. -/
theorem afterPack_withData : afterPack w { s with data := v } = { afterPack w s with data := v } := by
  rw [afterPack, valueOperand_withData hv]
  rfl

/-- A successful WRITE succeeds by the same branch with DATA that agrees on the low bits, and answers the same state but
for DATA. -/
theorem Success.withData {t : State} (h : Success (.write w) s t) :
    Success (.write w) { s with data := v } { t with data := v } := by
  have hval := valueOperand_withData hv
  cases h with
  | writeByte _ _ hs hf hm =>
    rw [← afterPack_withData hv]
    exact .writeByte w { s with data := v } hs hf hm
  | writePending _ _ hs hf hw =>
    rw [← hval]
    exact .writePending w { s with data := v } hs hf hw
  | writeFull _ _ hs hf hw hm =>
    rw [← hval]
    exact .writeFull w { s with data := v } hs hf hw hm
  | writeSplit _ _ hs hf hw hm =>
    rw [← hval]
    exact .writeSplit w { s with data := v } hs hf hw hm

end

/-- Whether a WRITE fails, and how, does not depend on DATA (60_exceptions R143). -/
theorem Failure.withData {w : Nat} {s : State} {c : StatusCode} {n : Nat} (h : Failure (.write w) s c n) (v : Word) :
    Failure (.write w) { s with data := v } c n := by
  cases h with
  | wrongSession _ _ h => exact .wrongSession _ _ h
  | writeWidth _ e _ hs hf => exact .writeWidth w e { s with data := v } hs hf

/-- Settles O40: success and failure carry over, each with the same state but for DATA. -/
theorem maskingLaw : Obligations.MaskingLaw := by
  intro w s t v hv h
  rcases exec_cases h with ⟨u, hu, rfl⟩ | ⟨c, n, hf, rfl⟩
  · exact exec_of_success (hu.withData hv)
  · exact exec_of_failure (hf.withData v)

/-! ### The boundary (40_byte_cursor R87, 41_word_accumulator R110) -/

/-- A WRITE or READ that succeeds completes with OK, its width further along the stream (10_state R11, R19). -/
theorem Success.completes_at {i : Instr} {s t : State} {w : Nat} (h : Success i s t) (hi : Invariants s)
    (hw : i = .write w ∨ i = .read w) : ∃ u, exec i s = .next u ∧ u.code = .ok ∧ bitPos u = bitPos s + w :=
  ⟨_, exec_of_success h, rfl, h.bitPos_add hi hw⟩

/-- Settles O41: exactly the bits left fit, one bit more does not. -/
theorem boundaryLaw : Obligations.BoundaryLaw := by
  intro e s r hi hleft h32
  have hfits : Fits r s := ⟨h32, hleft.le⟩
  have hover : ¬ Fits (r + 1) s := fun hf => by
    have hcap := hf.2
    rw [capacity_eq] at hcap
    omega
  rw [← hleft]
  constructor
  · intro hs
    obtain ⟨t, ht⟩ := hi.write_succeeds hs hfits
    exact ⟨ht.completes_at hi (.inl rfl), exec_of_failure (.writeWidth (r + 1) e s hs hover)⟩
  · intro hs
    obtain ⟨t, ht⟩ := hi.read_succeeds hs hfits
    exact ⟨ht.completes_at hi (.inr rfl), exec_of_failure (.readWidth (r + 1) e s hs hover)⟩

end Sys2Proof.Machine
end

section
/-! SUPPORT. The word-accumulator engine's WRITE, READ and FLUSH branch by branch (41_word_accumulator R100, R104,
R106), the stream laws of a transfer (R102, 20_memory R44) and the round trip of a list of values (R109). -/

namespace Sys2Proof.Machine

/-! ### The next states (41_word_accumulator R100, R104, R106) -/

/-- A completed word store changes the memory at WPTR, the pending word and WPTR, nothing else. -/
theorem setStatusOk_afterStore (word acc free : Nat) (s : State) : setStatusOk (afterStore word acc free s) = { s with
    mem := Memory.writeWord s.mem s.wptr.toNat (BitVec.ofNat 32 word)
    wptr := s.wptr + 4#32
    acc := BitVec.ofNat 32 acc
    acnt := BitVec.ofNat 6 free
    code := .ok
    ewidth := 0#6 } := by
  rw [← nextWordAddr_eq_add]
  rfl

/-- A completed word load changes RESULT, the loaded word and WPTR, nothing else. -/
theorem setStatusOk_afterLoad (w : Nat) (s : State) : setStatusOk (afterLoad w s) = { s with
    result := (afterLoad w s).result
    wptr := s.wptr + 4#32
    acc := BitVec.ofNat 32 (Memory.readWord s.mem s.wptr.toNat)
    acnt := BitVec.ofNat 6 (32 - (w - s.acnt.toNat))
    code := .ok
    ewidth := 0#6 } := by
  rw [← nextWordAddr_eq_add]
  rfl

/-- Settles O44: the three successful branches of WRITE, each with its room for the store, and its failure. -/
theorem wordWriteBranches : Obligations.WordWriteBranches := by
  intro w s hi hs
  have hroom (hf : Fits w s) (hw : s.acnt.toNat ≤ w) : nextWordAddr s ≤ s.cfg.bufMax :=
    (store_room hi hs hf hw).trans hi.len_le_bufMax
  refine ⟨fun hw => decodeOfEncode (.write w) ((wellFormed_write w).mpr hw), fun hf hw => ?_, fun hf hw => ?_,
    fun hf hw => ?_, fun hf => exec_of_failure (.writeWidth w .word s hs hf)⟩
  · exact exec_of_success (.writePending w s hs hf hw)
  · rw [exec_of_success (.writeFull w s hs hf hw (hroom hf hw.ge)), setStatusOk_afterStore]
    rfl
  · rw [exec_of_success (.writeSplit w s hs hf hw (hroom hf hw.le)), setStatusOk_afterStore]
    rfl

/-- Settles O46: the two successful branches of READ, the second with its room for the load, and its failure. -/
theorem wordReadBranches : Obligations.WordReadBranches := by
  intro w s hi hs
  refine ⟨fun hw => decodeOfEncode (.read w) ((wellFormed_read w).mpr hw), fun hf hw => ?_, fun hf hw => ?_,
    fun hf => exec_of_failure (.readWidth w .word s hs hf)⟩
  · exact exec_of_success (.readUnread w s hs hf hw)
  · have hroom : nextWordAddr s ≤ s.cfg.bufMax := (load_room hi hs hf hw).trans hi.len_le_bufMax
    rw [exec_of_success (.readLoad w s hs hf hw hroom), setStatusOk_afterLoad]
    rfl

/-- FLUSH runs in a word-accumulator write session only (30_encoding R66). -/
theorem allowed_flush_iff {s : State} : allowed .flush s = true ↔ InSession .write .word s := by
  simp [allowed, and_assoc]

/-- Settles O48: the two successful branches of FLUSH, the second of which leaves a state for the first, and its
failure. -/
theorem flushStoresPendingWord : Obligations.FlushStoresPendingWord := by
  intro s hi
  refine ⟨decodeOfEncode .flush rfl, fun hs hempty => exec_of_success (.flushEmpty s hs hempty), fun hs hlt => ?_,
    fun hs => exec_not_allowed (Bool.eq_false_iff.mpr (mt allowed_flush_iff.mp hs))⟩
  have hroom : nextWordAddr s ≤ s.len.toNat := flush_room hi hs hlt.ne
  have hflush := exec_of_success (.flushWord s hs hlt.ne (hroom.trans hi.len_le_bufMax))
  have hagain := exec_of_success (.flushEmpty (setStatusOk (afterStore s.acc.toNat 0 32 s)) hs rfl)
  refine ⟨_, hflush, ?_, ?_, hagain⟩
  · rw [setStatusOk_afterStore, BitVec.ofNat_toNat, BitVec.setWidth_eq]
  · rw [bitPos_setStatusOk, bitPos_afterStore hi hs hroom (Nat.le_refl 32), Nat.add_mul]

/-! ### The stream laws (41_word_accumulator R102, R104, 20_memory R44) -/

/-- Below the width, WRITE's value has the bits of DATA (30_encoding R63). -/
theorem testBit_valueOperand {w k : Nat} (s : State) (hk : k < w) :
    (valueOperand w s).testBit k = s.data.toNat.testBit k := by
  rw [valueOperand, Nat.testBit_and, testBit_mask, decide_eq_true hk, Bool.and_true]

/-- The value's bits follow the stream, most significant first (41_word_accumulator R102). -/
theorem Success.appends_data {w : Nat} {s t : State} (h : Success (.write w) s t) (hi : Invariants s)
    (he : s.eng = .word) {k : Nat} (hk : k < w) :
    Machine.writtenStreamBit t (bitPos s + k) = s.data.toNat.testBit (w - 1 - k) := by
  rw [(h.writtenStreamBit hi he).2 k hk, testBit_valueOperand s (by omega)]

/-- Settles O45: the WRITE succeeds, whichever branch it takes, and each branch appends the value to the stream. -/
theorem wordWriteStreamLaw : Obligations.WordWriteStreamLaw := by
  intro w s hi hs hf
  obtain ⟨t, ht⟩ := hi.write_succeeds hs hf
  exact ⟨_, exec_of_success ht, ht.bitPos_add hi (.inl rfl), (ht.writtenStreamBit hi hs.2.2).1,
    fun _ hk => ht.appends_data hi hs.2.2 hk⟩

/-- Settles O47: the READ succeeds, whichever branch it takes, and each branch takes RESULT from the stream. -/
theorem wordReadStreamLaw : Obligations.WordReadStreamLaw := by
  intro w s hi hs hf
  obtain ⟨t, ht⟩ := hi.read_succeeds hs hf
  have hx := exec_of_success ht
  exact ⟨_, hx, ht.bitPos_add hi (.inr rfl), readSessionNeverWritesBuffer _ s _ hs.1 hs.2.1 hx,
    ht.result_bit hi hs.2.2⟩

/-! ### The round trip (41_word_accumulator R109) -/

/-- From position `p` on, a bit stream spells these values, each in its width, most significant bit first (20_memory
R44). `writeAll_word` and `readAll_word` tie it to WRITE and READ. -/
def Spells (stream : Nat → Bool) : Nat → List (Word × Nat) → Prop
  | _, [] => True
  | p, (v, w) :: rest => (∀ k, k < w → stream (p + k) = v.toNat.testBit (w - 1 - k)) ∧ Spells stream (p + w) rest

/-- What a stream spells depends on the bits of the values alone. -/
theorem Spells.congr {f g : Nat → Bool} {items : List (Word × Nat)} : ∀ {p : Nat},
    (∀ j, j < p + (items.map Prod.snd).sum → g j = f j) → Spells f p items → Spells g p items := by
  induction items with
  | nil => intros; trivial
  | cons x rest ih =>
    intro p hfg h
    obtain ⟨v, w⟩ := x
    obtain ⟨hhead, hrest⟩ := h
    simp only [List.map_cons, List.sum_cons] at hfg
    exact ⟨fun k hk => (hfg _ (by omega)).trans (hhead k hk), ih (fun j hj => hfg j (by omega)) hrest⟩

/-- A WRITE or READ keeps the session and its length (10_state R13, R15). -/
theorem transfer_keeps_session {i : Instr} {w : Nat} {s t : State} (hw : i = .write w ∨ i = .read w)
    (h : exec i s = .next t) : (∀ d e, InSession d e s → InSession d e t) ∧ t.len = s.len ∧ t.cfg = s.cfg := by
  have hframe := commandsWriteOnlyTheirState i s t h
  rcases hw with rfl | rfl
  · rw [hframe]; exact ⟨fun _ _ hs => hs, rfl, rfl⟩
  · rw [hframe]; exact ⟨fun _ _ hs => hs, rfl, rfl⟩

/-- WRITEs that fit all complete with OK, keep the stream before the cursor and spell their values from it on
(41_word_accumulator R102). -/
theorem writeAll_word (items : List (Word × Nat)) : ∀ {s : State}, Invariants s → InSession .write .word s →
    (∀ x ∈ items, x.2 ≤ 32) → bitPos s + (items.map Prod.snd).sum ≤ s.len.toNat * 8 →
    ∃ t, writeAll items s = some t ∧ Invariants t ∧ InSession .write .word t ∧ t.cfg = s.cfg ∧
      bitPos t = bitPos s + (items.map Prod.snd).sum ∧
      (∀ j, j < bitPos s → writtenStreamBit t j = writtenStreamBit s j) ∧
      Spells (writtenStreamBit t) (bitPos s) items := by
  induction items with
  | nil => intro s hi hs _ _; exact ⟨s, rfl, hi, hs, rfl, rfl, fun _ _ => rfl, trivial⟩
  | cons x rest ih =>
    intro s hi hs hwidth hfit
    obtain ⟨v, w⟩ := x
    simp only [List.map_cons, List.sum_cons] at hfit ⊢
    have hroom : bitPos s + w ≤ s.len.toNat * 8 := by omega
    have hiv : Invariants { s with data := v } := hi.hostSide v _ _
    obtain ⟨u, hu⟩ := hiv.write_succeeds hs ⟨hwidth (v, w) List.mem_cons_self, hroom⟩
    have hx := exec_of_success hu
    have hpos : bitPos (setStatusOk u) = bitPos s + w := hu.bitPos_add hiv (.inl rfl)
    obtain ⟨hsession, hlen, hcfg⟩ := transfer_keeps_session (.inl rfl) hx
    have hlen : (setStatusOk u).len = s.len := hlen
    obtain ⟨t, ht, hit, hst, hcfgt, hpost, hkeep, hspell⟩ := ih (exec_keeps_inv hiv hx) (hsession _ _ hs)
      (fun y hy => hwidth y (List.mem_cons_of_mem _ hy)) (by rw [hpos, hlen]; omega)
    rw [hpos] at hpost hkeep hspell
    have hok : runOk (.write w) v s = some (setStatusOk u) := okNext_eq_some.mpr ⟨hx, rfl⟩
    refine ⟨t, ?_, hit, hst, hcfgt.trans hcfg, by rw [hpost, Nat.add_assoc], fun j hj => ?_, fun k hk => ?_, hspell⟩
    · rw [writeAll, hok]
      exact ht
    · exact (hkeep j (by omega)).trans ((hu.writtenStreamBit hiv hs.2.2).1 j hj)
    · exact (hkeep _ (by omega)).trans (hu.appends_data hiv hs.2.2 hk)

/-- After a FLUSH the whole stream written so far stands in the buffer (41_word_accumulator R103, R106). -/
theorem Success.flush_stores_stream {s t : State} (h : Success .flush s t) (hi : Invariants s) {j : Nat}
    (hj : j < bitPos s) : wordStreamBit t.mem j = Machine.writtenStreamBit s j := by
  have hal := hi.wptr_aligned
  cases h with
  | flushEmpty _ hs hempty =>
    rw [bitPos_wordWrite hs.2.2 hs.2.1] at hj
    rw [Machine.writtenStreamBit, if_pos (by omega)]
  | flushWord _ hs hpartial _ =>
    rw [bitPos_wordWrite hs.2.2 hs.2.1] at hj
    rw [afterStore_mem, wordStreamBit_writeWord _ _ hal, Machine.writtenStreamBit]
    by_cases hstored : j / 32 < s.wptr.toNat / 4
    · rw [if_neg (by omega), if_pos hstored]
    · rw [if_pos (by omega), if_neg hstored, BitVec.ofNat_toNat, BitVec.setWidth_eq, testBit_toNat]

/-- A word whose bits are a value's low `w` bits is the value masked to `w` bits. -/
theorem eq_masked_of_bits {r v : Word} {w : Nat}
    (h : ∀ k, r.getLsbD k = (decide (k < w) && v.toNat.testBit k)) : r = BitVec.ofNat 32 (v.toNat &&& mask w) := by
  apply BitVec.eq_of_getLsbD_eq
  intro k hk
  rw [h, BitVec.getLsbD_ofNat, Nat.testBit_and, testBit_mask, decide_eq_true hk, Bool.true_and, Bool.and_comm]

/-- READs of the values the buffer spells all complete with OK and give the values, masked (41_word_accumulator
R104). -/
theorem readAll_word (items : List (Word × Nat)) : ∀ {s : State}, Invariants s → InSession .read .word s →
    (∀ x ∈ items, x.2 ≤ 32) → bitPos s + (items.map Prod.snd).sum ≤ s.len.toNat * 8 →
    Spells (wordStreamBit s.mem) (bitPos s) items →
    ∃ t, readAll (items.map Prod.snd) s = some (items.map fun x => BitVec.ofNat 32 (x.1.toNat &&& mask x.2), t) := by
  induction items with
  | nil => intro s _ _ _ _ _; exact ⟨s, rfl⟩
  | cons x rest ih =>
    intro s hi hs hwidth hfit hspell
    obtain ⟨v, w⟩ := x
    obtain ⟨hhead, hrest⟩ := hspell
    simp only [List.map_cons, List.sum_cons] at hfit ⊢
    have hroom : bitPos s + w ≤ s.len.toNat * 8 := by omega
    obtain ⟨u, hu⟩ := hi.read_succeeds hs ⟨hwidth (v, w) List.mem_cons_self, hroom⟩
    have hx := exec_of_success hu
    have hpos : bitPos (setStatusOk u) = bitPos s + w := hu.bitPos_add hi (.inr rfl)
    have hmem : (setStatusOk u).mem = s.mem := readSessionNeverWritesBuffer _ s _ hs.1 hs.2.1 hx
    obtain ⟨hsession, hlen, -⟩ := transfer_keeps_session (.inr rfl) hx
    have hresult : u.result = BitVec.ofNat 32 (v.toNat &&& mask w) := eq_masked_of_bits fun k => by
      rw [hu.result_bit hi hs.2.2]
      by_cases hk : k < w
      · rw [hhead _ (by omega), show w - 1 - (w - 1 - k) = k by omega]
      · rw [decide_eq_false hk, Bool.false_and, Bool.false_and]
    obtain ⟨t, ht⟩ := ih (exec_keeps_inv hi hx) (hsession _ _ hs)
      (fun y hy => hwidth y (List.mem_cons_of_mem _ hy)) (by rw [hpos, hlen]; omega) (by rw [hpos, hmem]; exact hrest)
    have hok : okNext (exec (.read w) s) = some (setStatusOk u) := okNext_eq_some.mpr ⟨hx, rfl⟩
    refine ⟨t, ?_⟩
    rw [readAll, hok, Option.bind_some, ht, Option.map_some, setStatusOk_result, hresult]

/-- A word-accumulator session takes every length of whole words that exists (42_session_control R122). -/
theorem not_badLength_word {n : Nat} {s : State} (hn : n ≤ s.cfg.bufMax) (hal : n % 4 = 0) :
    ¬ BadLength .word n s := by
  rintro (hlong | ⟨-, hodd⟩)
  · exact absurd hn (Nat.not_le.mpr hlong)
  · exact hodd hal

/-- Settles O49: the WRITEs spell the values in the session's stream, FLUSH puts that stream in the buffer, and the
READs take it from there. -/
theorem wordRoundTrip : Obligations.WordRoundTrip := by
  intro items n s hi ha hal hn hwidth hfit
  obtain ⟨s1, h1, hi1, hs1, hlen1, hpos1, -, hcfg1⟩ := runOk_openSession (d := .write) hi ha
    (not_badLength_word hn hal)
  obtain ⟨s2, h2, hi2, hs2, hcfg2, hpos2, -, hspell⟩ := writeAll_word items hi1 hs1 hwidth
    (by rw [hpos1, hlen1]; omega)
  obtain ⟨u, hu⟩ := hi2.flush_succeeds hs2
  have hflush := exec_of_success hu
  have hi3 := exec_keeps_inv hi2 hflush
  have hframe := commandsWriteOnlyTheirState _ _ _ hflush
  have hact3 : (setStatusOk u).active = true := (congrArg State.active hframe).trans hs2.1
  have hcfg3 : u.cfg = s.cfg := (congrArg State.cfg hframe).trans (hcfg2.trans hcfg1)
  have hclose := exec_of_success (.closeSession _ hact3)
  obtain ⟨s5, h5, hi5, hs5, hlen5, hpos5, hmem5, -⟩ := runOk_openSession (d := .read)
    (exec_keeps_inv hi3 hclose) rfl (not_badLength_word (by rw [← hcfg3] at hn; exact hn) hal)
  have hspell5 : Spells (wordStreamBit s5.mem) (bitPos s5) items := by
    rw [hmem5, hpos5, ← hpos1]
    exact hspell.congr fun j hj => hu.flush_stores_stream hi2 (by rw [hpos2]; exact hj)
  obtain ⟨t, ht⟩ := readAll_word items hi5 hs5 hwidth (by rw [hpos5, hlen5]; omega) hspell5
  exact ⟨s1, s2, _, _, s5, _, h1, h2, okNext_eq_some.mpr ⟨hflush, rfl⟩, okNext_eq_some.mpr ⟨hclose, rfl⟩, h5, ht,
    rfl⟩

end Sys2Proof.Machine
end

section
/-! SUPPORT. Session control: OPEN, CLOSE and EXTEND in full (42_session_control R120, R124, R126), and one growing step
of the host's adapter, EXTEND and then the WRITE that did not fit (R127, 60_exceptions R153). -/

namespace Sys2Proof.Machine

/-! ### The length operand (30_encoding R63, 42_session_control R122) -/

/-- OPEN and EXTEND put DATA into LEN unchanged (30_encoding R63). -/
theorem ofNat_lengthOperand (s : State) : BitVec.ofNat 32 (lengthOperand s) = s.data :=
  BitVec.eq_of_toNat_eq (lengthOperand_toNat s)

/-- A length that exists, of whole words for the word engine, will do (42_session_control R122). -/
theorem not_badLength {e : Engine} {n : Nat} {s : State} (hn : n ≤ s.cfg.bufMax) (hal : e = .word → n % 4 = 0) :
    ¬ BadLength e n s := by
  cases e with
  | byte => exact not_badLength_byte hn
  | word => exact not_badLength_word hn (hal rfl)

/-! ### OPEN, CLOSE, EXTEND (42_session_control R120, R124, R126) -/

/-- A session starts with a zero cursor, whatever its kind (42_session_control R121). -/
theorem bitPos_startSession (d : Dir) (e : Engine) (s : State) : bitPos (startSession d e s) = 0 := by
  cases d <;> cases e <;> rfl

/-- The pending word of a word write session starts empty; elsewhere ACNT counts nothing (42_session_control R121). -/
theorem initialAcnt_eq (d : Dir) (e : Engine) : initialAcnt d e = if e = .word ∧ d = .write then 32#6 else 0#6 := by
  cases d <;> cases e <;> rfl

/-- OPEN takes LEN from DATA, sets the session and the cursor's registers, and nothing else (42_session_control R120). -/
theorem startSession_eq (d : Dir) (e : Engine) (s : State) : startSession d e s = { s with
    active := true, dir := d, eng := e, len := s.data, bidx := 0#29, boff := 0#3, acc := 0#32, wptr := 0#32,
    acnt := if e = .word ∧ d = .write then 32#6 else 0#6 } := by
  rw [startSession, ofNat_lengthOperand, initialAcnt_eq]

/-- OPEN's command word, its DIR and ENG bits in their places (42_session_control R120, 30_encoding R69). -/
theorem encode_openSession (d : Dir) (e : Engine) : encode (.openSession d e) =
    0x00000001#32 ||| (if d = .read then 0x10#32 else 0#32) ||| (if e = .word then 0x20#32 else 0#32) := by
  cases d <;> cases e <;> rfl

/-- Settles O32: OPEN's success, whose session starts at position 0, and its two failures. -/
theorem openStartsSession : Obligations.OpenStartsSession := by
  intro d e s
  refine ⟨?_, fun ha => exec_not_allowed (by simp [allowed, ha]),
    fun ha hbad => exec_of_failure (.openLength d e s ha hbad), fun ha hn hal => ?_⟩
  · rw [← encode_openSession]
    exact decodeOfEncode (.openSession d e) rfl
  · exact ⟨_, exec_of_success (.openSession d e s ha (not_badLength hn hal)), bitPos_startSession d e s,
      congrArg setStatusOk (startSession_eq d e s)⟩

/-- Settles O33: CLOSE's success and its failure. -/
theorem closeEndsSession : Obligations.CloseEndsSession := fun s =>
  ⟨decodeOfEncode .closeSession rfl, fun ha => exec_of_success (.closeSession s ha), fun ha => exec_not_allowed ha⟩

/-- EXTEND runs in a write session only (30_encoding R66). -/
theorem allowed_extend_iff {s : State} : allowed .extend s = true ↔ s.active = true ∧ s.dir = .write := by
  simp [allowed]

/-- Settles O34: EXTEND's success and its two failures. -/
theorem extendEnlargesBuffer : Obligations.ExtendEnlargesBuffer := by
  intro s
  refine ⟨decodeOfEncode .extend rfl, fun hs => exec_not_allowed (Bool.eq_false_iff.mpr (mt allowed_extend_iff.mp hs)),
    fun ha hd hbad => exec_of_failure (.extendLength s.eng s ⟨ha, hd, rfl⟩ hbad), fun ha hd hl hn hal => ?_⟩
  rw [exec_of_success (.extend s.eng s ⟨ha, hd, rfl⟩ hl (not_badLength hn hal)), ofNat_lengthOperand]
  rfl

/-! ### One growing step of the adapter (42_session_control R127, 60_exceptions R153) -/

/-- EXTEND to a length that will do re-points LEN and keeps the session, its cursor, the pending word and the buffer
(42_session_control R126, R127). -/
theorem runOk_extend {e : Engine} {n : Word} {s : State} (hi : Invariants s) (hs : InSession .write e s)
    (hl : s.len.toNat ≤ n.toNat) (hn : n.toNat ≤ s.cfg.bufMax) (hal : e = .word → n.toNat % 4 = 0) :
    ∃ t, runOk .extend n s = some t ∧ Invariants t ∧ InSession .write e t ∧ t.len = n ∧ bitPos t = bitPos s ∧
      t.acc = s.acc ∧ t.mem = s.mem := by
  obtain ⟨hact, hdir, rfl⟩ := hs
  obtain ⟨-, -, -, hext⟩ := extendEnlargesBuffer { s with data := n }
  have hx := hext hact hdir hl hn hal
  exact ⟨_, okNext_eq_some.mpr ⟨hx, rfl⟩, exec_keeps_inv (hi.hostSide n _ _) hx, ⟨hact, hdir, rfl⟩, rfl, rfl, rfl, rfl⟩

/-- A WRITE that fits its session completes with OK, its width further along the same buffer (00_scope R8, 10_state
R19). -/
theorem runOk_write {w : Nat} {e : Engine} {s : State} (v : Word) (hi : Invariants s) (hs : InSession .write e s)
    (hw : w ≤ 32) (hroom : bitPos s + w ≤ s.len.toNat * 8) :
    ∃ t, runOk (.write w) v s = some t ∧ t.len = s.len ∧ bitPos t = bitPos s + w := by
  have hiv : Invariants { s with data := v } := hi.hostSide v _ _
  obtain ⟨u, hu⟩ := hiv.write_succeeds hs ⟨hw, hroom⟩
  obtain ⟨t, hx, hok, hpos⟩ := hu.completes_at hiv (.inl rfl)
  obtain ⟨-, hlen, -⟩ := transfer_keeps_session (.inl rfl) hx
  exact ⟨t, okNext_eq_some.mpr ⟨hx, hok⟩, hlen, hpos⟩

/-- What a byte-cursor WRITE stores leaves every bit past the request as it was (40_byte_cursor R81). -/
theorem Stores.keeps_bit_past {w : Nat} {s : State} {f : Memory → Memory} (h : Stores (.write w) s f)
    (he : s.eng = .byte) (m : Memory) {j : Nat} (hj : bitPos s + w ≤ j) :
    (Memory.read (f m) (j / 8)).getLsbD (j % 8) = (Memory.read m (j / 8)).getLsbD (j % 8) := by
  cases h with
  | nothing => rfl
  | bytes _ _ hs hf =>
    have hout : ¬ ((cursor s).pos ≤ j / 8 * 8 + j % 8 ∧ j / 8 * 8 + j % 8 < (cursor s).pos + w) := by
      rw [← bitPos_byte he, Nat.div_add_mod' j 8]
      omega
    rw [packLoop_bit w w _ _ m (Nat.le_refl w) (cursor_off_lt s) _ _ (Nat.mod_lt j (by decide)), decide_eq_false hout,
      Bool.false_and, Bool.or_false]
  | word _ _ v hs hroom => exact absurd (he.symm.trans hs.2.2) (by decide)

/-- A byte-cursor WRITE leaves every buffer bit at or past its end as it was (40_byte_cursor R81). -/
theorem bit_past_of_runOk_write {w : Nat} {v : Word} {s t : State} (h : runOk (.write w) v s = some t)
    (he : s.eng = .byte) {j : Nat} (hj : bitPos s + w ≤ j) :
    (Memory.read t.mem (j / 8)).getLsbD (j % 8) = (Memory.read s.mem (j / 8)).getLsbD (j % 8) := by
  obtain ⟨hx, -⟩ := okNext_eq_some.mp h
  obtain ⟨f, hst, hmem, -⟩ := exec_stores hx
  rw [hmem]
  exact hst.keeps_bit_past he s.mem hj

/-- Settles O42: EXTEND makes the room and keeps the cursor, the WRITE fits and changes no bit past its end. -/
theorem adapterStepGrowsByteBuffer : Obligations.AdapterStepGrowsByteBuffer := by
  intro w v n s hi hs hw hgrow hn hmax
  obtain ⟨s1, hext, hi1, hs1, hlen1, hpos1, -, hmem1⟩ := runOk_extend hi hs (by omega) hmax (fun he => by cases he)
  obtain ⟨t, hwrite, hlen, hpos⟩ := runOk_write v hi1 hs1 hw (by rw [hpos1, hlen1]; omega)
  rw [hpos1] at hpos
  refine ⟨s1, t, hext, hpos1, hlen1, hwrite, by rw [hlen, hlen1, hpos, hn], hpos, fun hzero j hj hlt => ?_⟩
  have hpast : bitPos s1 + w ≤ j := by rw [hpos1, ← hpos]; exact hj
  rw [bit_past_of_runOk_write hwrite hs1.2.2 hpast, hmem1]
  exact hzero j (by omega) hlt

/-- Settles O50: EXTEND makes the room in whole words and keeps the cursor and the pending word, the WRITE fits. -/
theorem adapterStepGrowsWordBuffer : Obligations.AdapterStepGrowsWordBuffer := by
  intro w v n s hi hs hw hgrow hn hmax
  obtain ⟨s1, hext, hi1, hs1, hlen1, hpos1, hacc1, -⟩ := runOk_extend hi hs (by omega) hmax (fun _ => by omega)
  obtain ⟨t, hwrite, hlen, hpos⟩ := runOk_write v hi1 hs1 hw (by rw [hpos1, hlen1]; omega)
  rw [hpos1] at hpos
  exact ⟨s1, t, hext, hpos1, hacc1, hlen1, hwrite, by rw [hlen, hlen1, hpos, hn], hpos⟩

end Sys2Proof.Machine
end

section
/-! SUPPORT. How a command ends and what STATUS then says (60_exceptions R140 to R145): each code holds exactly where a
`Failure` of that code applies, and a failure applies again in the state it leaves. -/

namespace Sys2Proof.Machine

/-- Settles O20: every command succeeds or fails, and both complete. -/
theorem everyCommandCompletes : Obligations.EveryCommandCompletes := fun i _ hi => hi.exec_completes i

/-! ### When a failure applies (60_exceptions R143 to R145) -/

/-- WRITE runs in a write session only (30_encoding R66). -/
theorem allowed_write_iff {w : Nat} {s : State} : allowed (.write w) s = true ↔ s.active = true ∧ s.dir = .write := by
  simp [allowed]

/-- READ runs in a read session only (30_encoding R66). -/
theorem allowed_read_iff {w : Nat} {s : State} : allowed (.read w) s = true ↔ s.active = true ∧ s.dir = .read := by
  simp [allowed]

/-- A request is too wide for the engines or for the room left (60_exceptions R143). -/
theorem not_fits_iff {w : Nat} {s : State} : ¬ Fits w s ↔ 32 < w ∨ s.len.toNat * 8 < bitPos s + w := by
  rw [not_and_or, Nat.not_le, Nat.not_le, maxWidth_eq, capacity_eq]

/-- E_CMD applies where the dispatch table gives it (30_encoding R66, 60_exceptions R144). -/
theorem failure_eCmd_iff {i : Instr} {s : State} : (∃ n, Failure i s .eCmd n) ↔ allowed i s = false := by
  constructor
  · rintro ⟨_, hf⟩
    cases hf with | wrongSession _ _ hal => exact hal
  · exact fun hal => ⟨0, .wrongSession i s hal⟩

/-- E_CFG applies to a length that will not do, of OPEN or of EXTEND (60_exceptions R145). -/
theorem failure_eCfg_iff {i : Instr} {s : State} : (∃ n, Failure i s .eCfg n) ↔ allowed i s = true ∧
    ((∃ d e, i = .openSession d e ∧ BadLength e (lengthOperand s) s) ∨
     (i = .extend ∧ (lengthOperand s < s.len.toNat ∨ BadLength s.eng (lengthOperand s) s))) := by
  constructor
  · rintro ⟨_, hf⟩
    cases hf with
    | openLength d e _ ha hbad => exact ⟨by simp [allowed, ha], .inl ⟨d, e, rfl, hbad⟩⟩
    | extendLength e _ hs hbad =>
      obtain ⟨ha, hd, rfl⟩ := hs
      exact ⟨allowed_extend_iff.mpr ⟨ha, hd⟩, .inr ⟨rfl, hbad⟩⟩
  · rintro ⟨hal, ⟨d, e, rfl, hbad⟩ | ⟨rfl, hbad⟩⟩
    · exact ⟨0, .openLength d e s (by simpa [allowed] using hal) hbad⟩
    · obtain ⟨ha, hd⟩ := allowed_extend_iff.mp hal
      exact ⟨0, .extendLength s.eng s ⟨ha, hd, rfl⟩ hbad⟩

/-- E_WIDTH applies to a request that is not served, of WRITE or of READ (60_exceptions R143). -/
theorem failure_eWidth_iff {i : Instr} {s : State} : (∃ n, Failure i s .eWidth n) ↔ allowed i s = true ∧
    ∃ w, (i = .write w ∨ i = .read w) ∧ ¬ Fits w s := by
  constructor
  · rintro ⟨n, hf⟩
    cases hf with
    | writeWidth _ e _ hs hover => exact ⟨allowed_write_iff.mpr ⟨hs.1, hs.2.1⟩, n, .inl rfl, hover⟩
    | readWidth _ e _ hs hover => exact ⟨allowed_read_iff.mpr ⟨hs.1, hs.2.1⟩, n, .inr rfl, hover⟩
  · rintro ⟨hal, w, rfl | rfl, hover⟩
    · obtain ⟨ha, hd⟩ := allowed_write_iff.mp hal
      exact ⟨w, .writeWidth w s.eng s ⟨ha, hd, rfl⟩ hover⟩
    · obtain ⟨ha, hd⟩ := allowed_read_iff.mp hal
      exact ⟨w, .readWidth w s.eng s ⟨ha, hd, rfl⟩ hover⟩

/-! ### What STATUS says (60_exceptions R140, R141) -/

/-- A command reports a code other than OK exactly where a failure of that code applies. -/
theorem code_eq_iff_failure {i : Instr} {s t : State} {c : StatusCode} (h : exec i s = .next t) (hc : c ≠ .ok) :
    t.code = c ↔ ∃ n, Failure i s c n := by
  constructor
  · rintro rfl
    rcases exec_cases h with ⟨u, -, rfl⟩ | ⟨c, n, hf, rfl⟩
    · exact absurd rfl hc
    · exact ⟨n, hf⟩
  · rintro ⟨n, hf⟩
    cases h.symm.trans (exec_of_failure hf)
    rfl

/-- The information of a failure is the command's width for E_WIDTH, else 0 (60_exceptions R141, R143). -/
theorem Failure.ewidth_eq {i : Instr} {s : State} {c : StatusCode} {n : Nat} (h : Failure i s c n) :
    BitVec.ofNat 6 n = if c = .eWidth then BitVec.ofNat 6 (widthOf i) else 0#6 := by
  cases h <;> rfl

/-- Settles O22: each code by where its failure applies, EWIDTH by what the failure carries. -/
theorem statusReportsOutcome : Obligations.StatusReportsOutcome := by
  intro i s t h
  refine ⟨(code_eq_iff_failure h (by decide)).trans failure_eCmd_iff,
    (code_eq_iff_failure h (by decide)).trans failure_eCfg_iff, ?_, ?_⟩
  · simp only [← not_fits_iff]
    exact (code_eq_iff_failure h (by decide)).trans failure_eWidth_iff
  · rcases exec_cases h with ⟨u, -, rfl⟩ | ⟨c, n, hf, rfl⟩
    · rfl
    · exact hf.ewidth_eq

/-! ### A failed command again (60_exceptions R141) -/

/-- The dispatch table does not look at STATUS (30_encoding R66). -/
@[simp] theorem allowed_setStatusError (i : Instr) (c : StatusCode) (n : Nat) (s : State) :
    allowed i (setStatusError c n s) = allowed i s := by
  cases i <;> rfl

/-- A failure that applies still applies with another STATUS (60_exceptions R141). -/
theorem Failure.withStatus {i : Instr} {s : State} {c : StatusCode} {n : Nat} (h : Failure i s c n)
    (c' : StatusCode) (n' : Nat) : Failure i (setStatusError c' n' s) c n := by
  cases h with
  | wrongSession _ _ hal => exact .wrongSession _ _ ((allowed_setStatusError i c' n' s).trans hal)
  | openLength d e _ ha hbad => exact .openLength d e _ ha hbad
  | extendLength e _ hs hbad => exact .extendLength e _ hs hbad
  | writeWidth _ e _ hs hover => exact .writeWidth n e _ hs hover
  | readWidth _ e _ hs hover => exact .readWidth n e _ hs hover

/-- Settles O24: only a failure leaves a code other than OK; it writes STATUS alone and so applies again. -/
theorem failureChangesOnlyStatus : Obligations.FailureChangesOnlyStatus := by
  refine ⟨fun i s t h hcode => ?_, fun x r s hd => ⟨_, issue_of_illegal s hd, rfl, issue_of_illegal _ hd⟩⟩
  rcases exec_cases h with ⟨u, -, rfl⟩ | ⟨c, n, hf, rfl⟩
  · exact absurd rfl hcode
  · refine ⟨?_, exec_of_failure (hf.withStatus c n)⟩
    rw [setStatusError_code, ← hf.ewidth_eq]
    rfl

/-- Settles O25: a request that does not fit is the E_WIDTH failure of its session's engine. -/
theorem widthErrorLeavesState : Obligations.WidthErrorLeavesState := by
  intro w e s _ hover
  have hf : ¬ Fits w s := not_fits_iff.mpr hover
  exact ⟨fun hs => exec_of_failure (.writeWidth w e s hs hf), fun hs => exec_of_failure (.readWidth w e s hs hf)⟩

end Sys2Proof.Machine
end

section
/-! SUPPORT. Reset and the start of a session (70_reset R160, R161): the state after the reset input in full, and what of
the past a successful OPEN lets through. -/

namespace Sys2Proof.Machine

/-! ### The reset input (70_reset R160) -/

/-- The reset input writes every register of 10_state R29 and keeps the rest of the state. -/
theorem resetBlock_eq (s : State) : resetBlock s = { s with
    active := false, dir := .write, eng := .byte, data := 0#32, len := 0#32, bidx := 0#29, boff := 0#3, acc := 0#32,
    acnt := 0#6, wptr := 0#32, result := 0#32, code := .ok, ewidth := 0#6 } := rfl

/-- Settles O10: the move is the reset input, which writes exactly the registers. -/
theorem resetInputKeepsBuffer : Obligations.ResetInputKeepsBuffer := by
  intro s rest hp
  rw [step_of_pending hp, hostMove, resetBlock_eq]

/-! ### OPEN and the past (70_reset R161) -/

/-- No failure reports OK (60_exceptions R142). -/
theorem Failure.code_ne_ok {i : Instr} {s : State} {c : StatusCode} {n : Nat} (h : Failure i s c n) : c ≠ .ok := by
  cases h <;> decide

/-- A command that reports OK succeeded (60_exceptions R140, R141). -/
theorem success_of_code_ok {i : Instr} {s t : State} (h : exec i s = .next t) (hc : t.code = .ok) :
    ∃ u, Success i s u ∧ t = setStatusOk u := by
  rcases exec_cases h with hu | ⟨c, n, hf, rfl⟩
  · exact hu
  · exact absurd hc hf.code_ne_ok

/-- Whether a length will do depends on the parameter alone (42_session_control R122). -/
theorem badLength_congr {e : Engine} {n : Nat} {s s' : State} (hcfg : s'.cfg = s.cfg) :
    BadLength e n s' ↔ BadLength e n s := by
  rw [BadLength, BadLength, hcfg]

/-- Of the old state, a session starts with the parameter, DATA and the memory; RESULT, STATUS and the host's side stay
as they were, and OPEN overwrites the rest (42_session_control R120). -/
theorem startSession_congr (d : Dir) (e : Engine) {s s' : State} (hcfg : s'.cfg = s.cfg) (hdata : s'.data = s.data)
    (hmem : s'.mem = s.mem) : startSession d e s' = { startSession d e s with
      result := s'.result, code := s'.code, ewidth := s'.ewidth, pending := s'.pending, replies := s'.replies } := by
  simp only [startSession, lengthOperand, hcfg, hdata, hmem]

/-- Settles O35: an OPEN that reports OK is the success, which applies to the other state as well, and its new session
takes from either state what the two share. -/
theorem openForgetsThePast : Obligations.OpenForgetsThePast := by
  intro d e s s' t _ ha' hcfg hdata hmem h hc
  obtain ⟨u, hu, rfl⟩ := success_of_code_ok h hc
  cases hu with
  | openSession _ _ _ _ hn =>
    have hn' : ¬ BadLength e (lengthOperand s') s' := by
      rw [badLength_congr hcfg, lengthOperand, hdata]
      exact hn
    rw [exec_of_success (.openSession d e s' ha' hn'), startSession_congr d e hcfg hdata hmem]
    rfl

end Sys2Proof.Machine
end

section
/-! SUPPORT. The memory list's canonical form (log 1): kept by every store of a command and of the host, from any state. -/

namespace Sys2Proof.Machine

/-- Each way a command stores keeps the canonical form, wherever the cursor stands. -/
theorem Stores.wf {i : Instr} {s : State} {f : Memory → Memory} (h : Stores i s f) {m : Memory}
    (hm : Memory.wf m = true) : Memory.wf (f m) = true := by
  cases h with
  | nothing => exact hm
  | bytes w _ hs hf => exact (packLoop_keeps w w _ _ m (Nat.le_refl w) (cursor_off_lt s)).1 hm
  | word _ _ v hs hroom => exact Memory.wf_writeWord _ v hm

/-- Every word written to CMD keeps the canonical form, a command's by its store, an ILLEGAL one as no store. -/
theorem issue_keeps_wf {x : Word} {s t : State} (hm : Memory.wf s.mem = true) (h : issue x s = .next t) :
    Memory.wf t.mem = true := by
  cases hd : decode x with
  | ok i =>
    rw [issue_of_decode s hd] at h
    obtain ⟨f, hst, hmem, -⟩ := exec_stores h
    rw [hmem]
    exact hst.wf hm
  | error r =>
    rw [issue_of_illegal s hd] at h
    cases h
    exact hm

/-- Every move of the host keeps the canonical form: only a command and a byte write touch the list. -/
theorem hostMove_keeps_wf {m : HostMove} {s t : State} (hm : Memory.wf s.mem = true) (h : hostMove m s = .next t) :
    Memory.wf t.mem = true := by
  cases m with
  | writeReg r v =>
    by_cases hr : r = 0
    · subst hr; exact issue_keeps_wf hm h
    · cases (writeRegister_of_ne_cmd hr v s).symm.trans h; exact hm
  | readReg r => cases h; exact hm
  | writeByte a v =>
    obtain ⟨-, -, rfl⟩ := hostWriteByte_next h
    exact Memory.wf_write a v hm
  | readByte a =>
    obtain ⟨-, rfl⟩ := hostReadByte_next h
    exact hm
  | reset => cases h; exact hm

/-- Settles O19: a step waits or is one move of the host, and each keeps the canonical form. -/
theorem stepKeepsMemoryCanonical : Obligations.StepKeepsMemoryCanonical := by
  intro s t hm h
  cases hp : s.pending with
  | nil => cases (step_of_idle hp).symm.trans h; exact hm
  | cons m rest => exact hostMove_keeps_wf (s := { s with pending := rest }) hm ((step_of_pending hp).symm.trans h)

end Sys2Proof.Machine
end
